-- ==== Sys2Proof/Word.lean ====
section
/-! DEFINITION. The widths of the machine: bytes, 12-bit addresses, 16-bit instruction words and
4-bit register indices (spec/00_scope.md R7, R8; spec/10_state.md R20, R21). -/

namespace Sys2Proof

/-- One 8-bit cell: a general register, a timer or a byte of memory (R20, R50). -/
abbrev Byte := BitVec 8

/-- A 12-bit address: the program counter, the address register I, a return address (R20, R26, R27).
Addition on it is reduced modulo 4096, as R27 and R55 ask. -/
abbrev Addr := BitVec 12

/-- An instruction word (R80). -/
abbrev Word := BitVec 16

/-- A register index. It comes from a 4-bit field, so it is in 0..15 by construction (R21). -/
abbrev Reg := Fin 16

/-- The index 0xF of the flag register VF (R7, R24). -/
def flagReg : Reg := 15

end Sys2Proof
end

