-- ==== Sys2Proof/Config.lean ====
section
/-! DEFINITION. What is fixed for the machine (spec/00_scope.md R7, R8), the open parameters
(R9), and the answers of the environment that the spec leaves free (R34, R35). -/

namespace Sys2Proof

/-- First address of the program image and reset value of pc (R7, R27). -/
def Config.progBase : Addr := 0x200

/-- The ceiling of ADD I, Vx (R8, R171). -/
def Config.iMax : Nat := 0xFFF

/-- Bytes of LOWMEM, the contents of 0x000..0x1FF after reset (R9). -/
def Config.lowmemSize : Nat := 512

/-- Largest program image in bytes (R8, R251). -/
def Config.imageMax : Nat := 3584

/-- Bytes of memory (R7, R50). -/
def Config.memSize : Nat := 4096

/-- The two OPEN parameters of LD F, Vx (R9, R172). DESIGN CHOICE (log 2): they are held in State as
plain data that nothing writes, so a claim about every state is a claim for every value of them;
the default values are the ones R9 names. -/
structure Params where
  /-- FONT_BASE, the address of glyph 0. -/
  fontBase : Addr := 0x000
  /-- GLYPH_STRIDE, the bytes from one glyph to the next. -/
  glyphStride : Nat := 5
  deriving DecidableEq, Repr

/-- The answers the environment gives during one Advance request (R9, R34, R35, R253). -/
structure StepInput where
  /-- `Rand`: what the random source draws (R34). -/
  rand : Byte
  /-- The key codes for which `KeyPressed` is true; for every other code it is false (R35).
  DESIGN CHOICE (log 5): a list of codes stands for the total function on 0..255. -/
  pressed : List Byte
  /-- `KeyWait`: none, or the key the provider reports (R35). -/
  keyWait : Option Byte
  deriving DecidableEq, Repr, Inhabited

/-- FREE VALUE (log 4): the answers of the environment to the n-th Advance request when State lists
none. It has no body: nothing can be proved about which answers they are (R34, R35; U1 to U3). -/
opaque Config.freeInput : Nat → StepInput

end Sys2Proof
end

