-- ==== Sys2Proof/Syntax.lean ====
section
/-! DEFINITION. The instruction set: one constructor per row of spec/opcode_table.json, carrying the
decoded operands of the row's format (spec/30_encoding.md R81, R83, R86, R87). -/

namespace Sys2Proof

/-- The operations of R86, with their operands. -/
inductive Instr where
  /-- 00E0 CLS, clear-display (R120). -/
  | cls
  /-- 00EE RET, return-from-subroutine (R130). -/
  | ret
  /-- 1nnn JP nnn, jump(address) (R131). -/
  | jp (nnn : Addr)
  /-- 2nnn CALL nnn, call(address) (R132). -/
  | call (nnn : Addr)
  /-- 3xnn SE Vx, nn, skip-if-equal (R140). -/
  | seImm (x : Reg) (nn : Byte)
  /-- 4xnn SNE Vx, nn, skip-if-not-equal (R141). -/
  | sneImm (x : Reg) (nn : Byte)
  /-- 5xy0 SE Vx, Vy, skip-if-registers-equal (R142). -/
  | seReg (x y : Reg)
  /-- 6xnn LD Vx, nn, load-immediate (R150). -/
  | ldImm (x : Reg) (nn : Byte)
  /-- 7xnn ADD Vx, nn, add-immediate (R151). -/
  | addImm (x : Reg) (nn : Byte)
  /-- 8xy0 LD Vx, Vy, copy-register (R152). -/
  | ldReg (x y : Reg)
  /-- 8xy1 OR Vx, Vy, bitwise-or (R153). -/
  | orReg (x y : Reg)
  /-- 8xy2 AND Vx, Vy, bitwise-and (R154). -/
  | andReg (x y : Reg)
  /-- 8xy3 XOR Vx, Vy, bitwise-xor (R155). -/
  | xorReg (x y : Reg)
  /-- 8xy4 ADD Vx, Vy, add-with-carry (R156). -/
  | addReg (x y : Reg)
  /-- 8xy5 SUB Vx, Vy, subtract-with-borrow (R157). -/
  | subReg (x y : Reg)
  /-- 8xyE SHL Vx {, Vy}, shift; `y` is decoded and ignored (R92, R158; log 8). -/
  | shl (x y : Reg)
  /-- 9xy0 SNE Vx, Vy, skip-if-registers-not-equal (R143). -/
  | sneReg (x y : Reg)
  /-- Annn LD I, nnn, load-address-register (R170). -/
  | ldI (nnn : Addr)
  /-- Bnnn JP V0, nnn, jump-indexed (R133). -/
  | jpV0 (nnn : Addr)
  /-- Cxnn RND Vx, nn, random-masked (R180). -/
  | rnd (x : Reg) (nn : Byte)
  /-- Dxyn DRW Vx, Vy, n, draw-sprite of `n` rows (R121). -/
  | drw (x y : Reg) (n : Fin 16)
  /-- Ex9E SKP Vx, skip-if-key-pressed (R181). -/
  | skp (x : Reg)
  /-- ExA1 SKNP Vx, skip-if-key-not-pressed (R182). -/
  | sknp (x : Reg)
  /-- Fx07 LD Vx, DT, read-delay-timer (R183). -/
  | ldVxDt (x : Reg)
  /-- Fx0A LD Vx, K, wait-for-key (R184). -/
  | ldVxK (x : Reg)
  /-- Fx15 LD DT, Vx, set-delay-timer (R185). -/
  | ldDt (x : Reg)
  /-- Fx18 LD ST, Vx, set-sound-timer (R186). -/
  | ldSt (x : Reg)
  /-- Fx1E ADD I, Vx, add-to-address-register (R171). -/
  | addI (x : Reg)
  /-- Fx29 LD F, Vx, load-sprite-digit-address (R172). -/
  | ldF (x : Reg)
  /-- Fx33 LD B, Vx, store-bcd (R200). -/
  | ldB (x : Reg)
  /-- Fx55 LD [I], Vx, store-registers-to-memory (R201). -/
  | storeRegs (x : Reg)
  /-- Fx65 LD Vx, [I], load-registers-from-memory (R202). -/
  | loadRegs (x : Reg)
  /-- Every other word: UNRECOGNIZED, no operands, the word's bits are not kept (R88, R210). -/
  | unrecognized
  deriving DecidableEq, Repr

end Sys2Proof
end

