-- ==== Sys2Proof/WellFormed.lean ====
section
/-! DEFINITION. Which terms are well formed: an instruction whose operands fit the fields of its format
(spec/30_encoding.md R81, R82) and a program image that fits above 0x200 (spec/70_reset_and_hazards.md R251). -/

namespace Sys2Proof

/-- An operand together with the bits hi..lo of the word that hold it (R82, opcode_table.json "fields"). -/
structure OperandField where
  hi : Nat
  lo : Nat
  value : Nat
  deriving DecidableEq, Repr

/-- The operand is a number its field can hold. -/
def OperandField.fits (f : OperandField) : Bool :=
  decide (f.lo ≤ f.hi) && decide (f.hi < 16) && decide (f.value < 2 ^ (f.hi + 1 - f.lo))

/-- The operand fields of a format A instruction (R81). -/
def fieldsA (nnn : Addr) : List OperandField := [⟨11, 0, nnn.toNat⟩]

/-- The operand fields of a format RI instruction (R81). -/
def fieldsRI (x : Reg) (nn : Byte) : List OperandField := [⟨11, 8, x.val⟩, ⟨7, 0, nn.toNat⟩]

/-- The operand fields of a format RR instruction (R81). -/
def fieldsRR (x y : Reg) : List OperandField := [⟨11, 8, x.val⟩, ⟨7, 4, y.val⟩]

/-- The operand fields of a format RS instruction (R81). -/
def fieldsRS (x : Reg) : List OperandField := [⟨11, 8, x.val⟩]

/-- The operand fields of an instruction, by its format (R81, R86). -/
def Instr.fields : Instr → List OperandField
  | .cls => []
  | .ret => []
  | .jp nnn => fieldsA nnn
  | .call nnn => fieldsA nnn
  | .seImm x nn => fieldsRI x nn
  | .sneImm x nn => fieldsRI x nn
  | .seReg x y => fieldsRR x y
  | .ldImm x nn => fieldsRI x nn
  | .addImm x nn => fieldsRI x nn
  | .ldReg x y => fieldsRR x y
  | .orReg x y => fieldsRR x y
  | .andReg x y => fieldsRR x y
  | .xorReg x y => fieldsRR x y
  | .addReg x y => fieldsRR x y
  | .subReg x y => fieldsRR x y
  | .shl x y => fieldsRR x y
  | .sneReg x y => fieldsRR x y
  | .ldI nnn => fieldsA nnn
  | .jpV0 nnn => fieldsA nnn
  | .rnd x nn => fieldsRI x nn
  | .drw x y n => fieldsRR x y ++ [⟨3, 0, n.val⟩]
  | .skp x => fieldsRS x
  | .sknp x => fieldsRS x
  | .ldVxDt x => fieldsRS x
  | .ldVxK x => fieldsRS x
  | .ldDt x => fieldsRS x
  | .ldSt x => fieldsRS x
  | .addI x => fieldsRS x
  | .ldF x => fieldsRS x
  | .ldB x => fieldsRS x
  | .storeRegs x => fieldsRS x
  | .loadRegs x => fieldsRS x
  | .unrecognized => []

/-- Every operand fits its field. The operand types carry the ranges of R82 (an index "is in 0..15 by
construction", R21), so this holds of every term (Laws/PerInstr.lean, family OperandsFit). -/
def Instr.wellFormed (i : Instr) : Bool := i.fields.all OperandField.fits

/-- A program image fits between 0x200 and 0xFFF; a longer one is refused (R251). -/
def imageFits (image : List Byte) : Bool := decide (image.length ≤ Config.imageMax)

end Sys2Proof
end

