-- ==== Sys2Proof/Decode.lean ====
section
/-! DEFINITION. The decoder, a total function on 16-bit words given by one opcode map
(spec/30_encoding.md R80 to R92), and after it the encoder. -/

namespace Sys2Proof

/-! ## Fields (R82) -/

/-- The family `f`, bits 15..12. -/
def fieldF (w : Word) : BitVec 4 := w.extractLsb' 12 4

/-- `x`, bits 11..8: the first register operand. -/
def fieldX (w : Word) : Reg := (w.extractLsb' 8 4).toFin

/-- `y`, bits 7..4: the second register operand. -/
def fieldY (w : Word) : Reg := (w.extractLsb' 4 4).toFin

/-- `n`, bits 3..0: sprite height or sub-opcode. -/
def fieldN (w : Word) : Fin 16 := (w.extractLsb' 0 4).toFin

/-- `nn`, bits 7..0: 8-bit immediate or sub-opcode. -/
def fieldNN (w : Word) : Byte := w.extractLsb' 0 8

/-- `nnn`, bits 11..0: address. -/
def fieldNNN (w : Word) : Addr := w.extractLsb' 0 12

/-! ## The opcode map (R85, R86) -/

/-- One row of the opcode map: a word `w` is of the row when `w & mask = pattern`; `build` reads the
operands the row's format gives (R81, R83). -/
structure OpRow where
  mask : Word
  pattern : Word
  build : Word → Instr

/-- A word matches a row (R85). -/
def OpRow.accepts (r : OpRow) (w : Word) : Bool := (w &&& r.mask) == r.pattern

/-- OPMAP, rows of families 0 to 7 (R86; opcode numbers PRESUMED by the spec itself, log 11). -/
def opmapLow : List OpRow :=
  [ ⟨0xFFFF, 0x00E0, fun _ => .cls⟩,
    ⟨0xFFFF, 0x00EE, fun _ => .ret⟩,
    ⟨0xF000, 0x1000, fun w => .jp (fieldNNN w)⟩,
    ⟨0xF000, 0x2000, fun w => .call (fieldNNN w)⟩,
    ⟨0xF000, 0x3000, fun w => .seImm (fieldX w) (fieldNN w)⟩,
    ⟨0xF000, 0x4000, fun w => .sneImm (fieldX w) (fieldNN w)⟩,
    ⟨0xF00F, 0x5000, fun w => .seReg (fieldX w) (fieldY w)⟩,
    ⟨0xF000, 0x6000, fun w => .ldImm (fieldX w) (fieldNN w)⟩,
    ⟨0xF000, 0x7000, fun w => .addImm (fieldX w) (fieldNN w)⟩ ]

/-- OPMAP, rows of families 8 to D (R86). -/
def opmapMid : List OpRow :=
  [ ⟨0xF00F, 0x8000, fun w => .ldReg (fieldX w) (fieldY w)⟩,
    ⟨0xF00F, 0x8001, fun w => .orReg (fieldX w) (fieldY w)⟩,
    ⟨0xF00F, 0x8002, fun w => .andReg (fieldX w) (fieldY w)⟩,
    ⟨0xF00F, 0x8003, fun w => .xorReg (fieldX w) (fieldY w)⟩,
    ⟨0xF00F, 0x8004, fun w => .addReg (fieldX w) (fieldY w)⟩,
    ⟨0xF00F, 0x8005, fun w => .subReg (fieldX w) (fieldY w)⟩,
    ⟨0xF00F, 0x800E, fun w => .shl (fieldX w) (fieldY w)⟩,
    ⟨0xF00F, 0x9000, fun w => .sneReg (fieldX w) (fieldY w)⟩,
    ⟨0xF000, 0xA000, fun w => .ldI (fieldNNN w)⟩,
    ⟨0xF000, 0xB000, fun w => .jpV0 (fieldNNN w)⟩,
    ⟨0xF000, 0xC000, fun w => .rnd (fieldX w) (fieldNN w)⟩,
    ⟨0xF000, 0xD000, fun w => .drw (fieldX w) (fieldY w) (fieldN w)⟩ ]

/-- OPMAP, rows of families E and F (R86). -/
def opmapHigh : List OpRow :=
  [ ⟨0xF0FF, 0xE09E, fun w => .skp (fieldX w)⟩,
    ⟨0xF0FF, 0xE0A1, fun w => .sknp (fieldX w)⟩,
    ⟨0xF0FF, 0xF007, fun w => .ldVxDt (fieldX w)⟩,
    ⟨0xF0FF, 0xF00A, fun w => .ldVxK (fieldX w)⟩,
    ⟨0xF0FF, 0xF015, fun w => .ldDt (fieldX w)⟩,
    ⟨0xF0FF, 0xF018, fun w => .ldSt (fieldX w)⟩,
    ⟨0xF0FF, 0xF01E, fun w => .addI (fieldX w)⟩,
    ⟨0xF0FF, 0xF029, fun w => .ldF (fieldX w)⟩,
    ⟨0xF0FF, 0xF033, fun w => .ldB (fieldX w)⟩,
    ⟨0xF0FF, 0xF055, fun w => .storeRegs (fieldX w)⟩,
    ⟨0xF0FF, 0xF065, fun w => .loadRegs (fieldX w)⟩ ]

/-- OPMAP: the 32 rows of R86 before the fallback. R8 keeps it one replaceable table. -/
def opmap : List OpRow := opmapLow ++ opmapMid ++ opmapHigh

/-- The decoder: total, and UNRECOGNIZED for a word that matches no row (R83, R85, R88, R211). -/
def decode (w : Word) : Instr :=
  match opmap.find? (fun r => r.accepts w) with
  | some r => r.build w
  | none => .unrecognized

/-! ## The same decoder as R84 words it: by family, then by the bottom 4 or 8 bits -/

/-- Family 8, dispatched on `n` (R84). -/
def dispatch8 (w : Word) : Instr :=
  match (fieldN w).val with
  | 0x0 => .ldReg (fieldX w) (fieldY w)
  | 0x1 => .orReg (fieldX w) (fieldY w)
  | 0x2 => .andReg (fieldX w) (fieldY w)
  | 0x3 => .xorReg (fieldX w) (fieldY w)
  | 0x4 => .addReg (fieldX w) (fieldY w)
  | 0x5 => .subReg (fieldX w) (fieldY w)
  | 0xE => .shl (fieldX w) (fieldY w)
  | _ => .unrecognized

/-- Family F, dispatched on `nn` (R84). -/
def dispatchF (w : Word) : Instr :=
  match (fieldNN w).toNat with
  | 0x07 => .ldVxDt (fieldX w)
  | 0x0A => .ldVxK (fieldX w)
  | 0x15 => .ldDt (fieldX w)
  | 0x18 => .ldSt (fieldX w)
  | 0x1E => .addI (fieldX w)
  | 0x29 => .ldF (fieldX w)
  | 0x33 => .ldB (fieldX w)
  | 0x55 => .storeRegs (fieldX w)
  | 0x65 => .loadRegs (fieldX w)
  | _ => .unrecognized

/-- The dispatch order of R84, written out as a second reading of the map: claims compare it with
`decode`, the machine does not use it. -/
def decodeByFamily (w : Word) : Instr :=
  match (fieldF w).toNat with
  | 0x0 => if fieldNNN w = 0x0E0 then .cls else if fieldNNN w = 0x0EE then .ret else .unrecognized
  | 0x1 => .jp (fieldNNN w)
  | 0x2 => .call (fieldNNN w)
  | 0x3 => .seImm (fieldX w) (fieldNN w)
  | 0x4 => .sneImm (fieldX w) (fieldNN w)
  | 0x5 => if fieldN w = 0 then .seReg (fieldX w) (fieldY w) else .unrecognized
  | 0x6 => .ldImm (fieldX w) (fieldNN w)
  | 0x7 => .addImm (fieldX w) (fieldNN w)
  | 0x8 => dispatch8 w
  | 0x9 => if fieldN w = 0 then .sneReg (fieldX w) (fieldY w) else .unrecognized
  | 0xA => .ldI (fieldNNN w)
  | 0xB => .jpV0 (fieldNNN w)
  | 0xC => .rnd (fieldX w) (fieldNN w)
  | 0xD => .drw (fieldX w) (fieldY w) (fieldN w)
  | 0xE => if fieldNN w = 0x9E then .skp (fieldX w) else if fieldNN w = 0xA1 then .sknp (fieldX w) else .unrecognized
  | _ => dispatchF w

/-! ## Bytes -/

/-- An instruction word in memory: the byte at the lower address is bits 15..8 (R54, R80). -/
def wordOfBytes (hi lo : Byte) : Word := hi ++ lo

/-- Bits 15..8 of a word, the byte at the lower address (R54). -/
def hiByte (w : Word) : Byte := w.extractLsb' 8 8

/-- Bits 7..0 of a word, the byte at the higher address (R54). -/
def loByte (w : Word) : Byte := w.extractLsb' 0 8

/-- Why a list of bytes holds no instruction. Every WORD is one (R211); only a missing byte is not. -/
inductive DecodeError where
  /-- Fewer than the two bytes every instruction has (R80). -/
  | truncated
  deriving DecidableEq, Repr

/-- Decode the instruction at the head of a list of bytes and give the bytes after it. -/
def decodeBytes : List Byte → Except DecodeError (Instr × List Byte)
  | hi :: lo :: rest => .ok (decode (wordOfBytes hi lo), rest)
  | [_] => .error .truncated
  | [] => .error .truncated

/-- The decoder on a word numbered as spec/opcode_table.json numbers it; bits above `nbits` are 0. -/
def decodeTableWord (nbits w : Nat) : Option Instr :=
  let word : Word := BitVec.ofNat 16 (w % 2 ^ nbits)
  match decodeBytes [hiByte word, loByte word] with
  | .ok (i, _) => some i
  | .error _ => none

/-! ## The encoder (R81, R86) -/

/-- A 4-bit field holding a register index or a count. -/
def nibble (x : Fin 16) : BitVec 4 := BitVec.ofFin x

/-- Format A: family, address. -/
def formatA (f : BitVec 4) (nnn : Addr) : Word := f ++ nnn

/-- Format RI: family, register, immediate; format RS is the same with a fixed sub-opcode as `nn`. -/
def formatRI (f : BitVec 4) (x : Reg) (nn : Byte) : Word := f ++ nibble x ++ nn

/-- Format RRN: family, two registers, count; format RR is the same with a fixed sub-opcode as `n`. -/
def formatRRN (f : BitVec 4) (x y : Reg) (n : BitVec 4) : Word := f ++ nibble x ++ nibble y ++ n

/-- The word of an instruction. UNRECOGNIZED keeps no bits of its word (R210), so the encoder has to
choose one of its 22094 words: 0x0000 (DESIGN CHOICE, log 7). -/
def encode : Instr → Word
  | .cls => 0x00E0
  | .ret => 0x00EE
  | .jp nnn => formatA 0x1 nnn
  | .call nnn => formatA 0x2 nnn
  | .seImm x nn => formatRI 0x3 x nn
  | .sneImm x nn => formatRI 0x4 x nn
  | .seReg x y => formatRRN 0x5 x y 0x0
  | .ldImm x nn => formatRI 0x6 x nn
  | .addImm x nn => formatRI 0x7 x nn
  | .ldReg x y => formatRRN 0x8 x y 0x0
  | .orReg x y => formatRRN 0x8 x y 0x1
  | .andReg x y => formatRRN 0x8 x y 0x2
  | .xorReg x y => formatRRN 0x8 x y 0x3
  | .addReg x y => formatRRN 0x8 x y 0x4
  | .subReg x y => formatRRN 0x8 x y 0x5
  | .shl x y => formatRRN 0x8 x y 0xE
  | .sneReg x y => formatRRN 0x9 x y 0x0
  | .ldI nnn => formatA 0xA nnn
  | .jpV0 nnn => formatA 0xB nnn
  | .rnd x nn => formatRI 0xC x nn
  | .drw x y n => formatRRN 0xD x y (nibble n)
  | .skp x => formatRI 0xE x 0x9E
  | .sknp x => formatRI 0xE x 0xA1
  | .ldVxDt x => formatRI 0xF x 0x07
  | .ldVxK x => formatRI 0xF x 0x0A
  | .ldDt x => formatRI 0xF x 0x15
  | .ldSt x => formatRI 0xF x 0x18
  | .addI x => formatRI 0xF x 0x1E
  | .ldF x => formatRI 0xF x 0x29
  | .ldB x => formatRI 0xF x 0x33
  | .storeRegs x => formatRI 0xF x 0x55
  | .loadRegs x => formatRI 0xF x 0x65
  | .unrecognized => 0x0000

/-- The two bytes of an instruction, first the one at the lower address. -/
def encodeBytes (i : Instr) : List Byte := [hiByte (encode i), loByte (encode i)]

end Sys2Proof
end

