-- ==== Sys2Proof/Machine/State.lean ====
section
/-! DEFINITION. Everything the machine holds (spec/10_state.md R20), the value a step returns
(spec/41_display.md R122), the reasons a request can stop, and the state after reset (R37). -/

namespace Sys2Proof.Machine

/-- Memory as (address, byte) pairs in one canonical form: addresses strictly rising, below 4096, and no
entry equal to what an unlisted address reads as (`Memory.wf`, Machine/Ops.lean). -/
abbrev Memory := List Host.Cell

/-- One pixel coordinate of a draw, exact natural numbers (R121, R122). -/
structure Pixel where
  px : Nat
  py : Nat
  deriving DecidableEq, Repr

/-- The display-change value `dc`, exactly three forms (R122). -/
inductive DisplayChange where
  /-- NONE: nothing changes. -/
  | unchanged
  /-- CLEAR: every pixel goes off. -/
  | clear
  /-- TOGGLE(pixels): each listed pixel is inverted; the list is row-major and means a set (R123). -/
  | toggle (pixels : List Pixel)
  deriving DecidableEq, Repr

/-- What the last request gave the driver (R253). The model's own field (log 3). -/
inductive Reply where
  /-- Nothing: the last request was a Reset. -/
  | nothing
  /-- "held": the step did not happen (R108). -/
  | held
  /-- The display-change value of a completed step (R36). -/
  | returned (dc : DisplayChange)
  deriving DecidableEq, Repr

/-- The reasons a step ends in a fault: none. "The core raises no synchronous exception. No instruction,
operand value or machine state causes a trap, a fault, an abort or a panic" (spec/60_exceptions.md R220). -/
inductive Fault where
  deriving DecidableEq, Repr

/-- The reasons a request is refused. No step of the machine is ever refused (R102). -/
inductive Refusal where
  /-- An instruction that has no meaning in the model. No arm of `exec` answers it: every row of the
  opcode table is modelled. Safe: the machine stops where the hardware goes on. -/
  | notModelled (mnemonic : String)
  /-- Raised by the driver's Reset (Machine/Driver.lean) when the image is longer than 3584 bytes: "the
  load does not happen and the core is not started" (R251). The spec's own refusal. Safe (log 6). -/
  | imageTooLong
  /-- Raised by the driver's Advance (Machine/Driver.lean) on a core that no Reset has started: "Before the
  first reset the state is unspecified and no step may be requested" (R252). The spec's own refusal (U16:
  "refuse"). Safe (log 6). -/
  | notYetReset
  deriving DecidableEq, Repr

/-- The state. The first eight fields are the tuple of R20 "and nothing else"; the last five are the
model's own, for what a step takes from its environment and gives its caller (R34 to R36, R9) and for what
the driver may request (R252). -/
structure State where
  /-- V0..VF (R21). -/
  v : Vector Byte 16
  /-- The address register I (R26). -/
  i : Addr
  /-- The program counter (R27). -/
  pc : Addr
  /-- SP, how many entries of the call stack are in use, 0..16 (R28, R29). -/
  sp : Fin 17
  /-- STACK[0..15], live below SP; a popped cell keeps its contents (R28). -/
  stack : Vector Addr 16
  /-- The delay counter DT (R30). -/
  dt : Byte
  /-- The sound counter ST (R30). -/
  st : Byte
  /-- MEM[0..4095] (R50). -/
  mem : Memory
  /-- What the last request gave the driver (R36, R253; log 3). -/
  reply : Reply
  /-- The environment's answers to the coming Advance requests, the next one first (R34, R35; log 4). -/
  inputs : List StepInput
  /-- How many Advance requests have been made: the index of the free answer (log 4). -/
  requests : Nat
  /-- FONT_BASE and GLYPH_STRIDE; nothing writes them (R9; log 2). -/
  params : Params
  /-- A Reset has started the core. While it is false the other fields are unspecified and the driver may
  request no step (R252); only Reset writes it, and no instruction can (log 6). -/
  started : Bool
  deriving DecidableEq, Repr

/-- How a step or the meaning of one instruction ends. -/
abbrev Result := Host.Outcome State Fault Refusal

/-- The state after reset (R37, R250) with LOWMEM all zero and IMAGE empty (log 1): every register 0 but
pc = 0x200, and no byte of memory listed. -/
def State.reset : State where
  v := Vector.replicate 16 0
  i := 0
  pc := Config.progBase
  sp := 0
  stack := Vector.replicate 16 0
  dt := 0
  st := 0
  mem := []
  reply := .nothing
  inputs := []
  requests := 0
  params := {}
  started := true

end Sys2Proof.Machine
end

