-- ==== Sys2Proof/Machine/Ops.lean ====
section
/-! DEFINITION. The named operations every meaning is written from: memory, registers, the program
counter, the call stack, the timers, the hold, the frame of a step, and reset.
There is no operation that takes an exception or returns from one: the hardware has neither
(spec/60_exceptions.md R220, R225, R226). -/

namespace Sys2Proof.Machine

/-! ## Memory (spec/20_memory.md) -/

/-- What an address that memory does not list reads as: 0x00, the content R37 gives every byte outside
LOWMEM and IMAGE. -/
def Memory.unlisted : Byte := 0x00

/-- The byte at `a` (R52). -/
def Memory.read : Memory → Nat → Byte
  | [], _ => Memory.unlisted
  | (b, w) :: m, a => if a = b then w else Memory.read m a

/-- Put a byte at `a` (R53), keeping the canonical form. -/
def Memory.write : Memory → Nat → Byte → Memory
  | [], a, v => if v = Memory.unlisted then [] else [(a, v)]
  | (b, w) :: m, a, v =>
    if a < b then
      if v = Memory.unlisted then (b, w) :: m else (a, v) :: (b, w) :: m
    else if a = b then
      if v = Memory.unlisted then m else (a, v) :: m
    else (b, w) :: Memory.write m a v

/-- The canonical form from address `lo` up. -/
def Memory.wfFrom : Nat → Memory → Bool
  | _, [] => true
  | lo, (a, v) :: m =>
    decide (lo ≤ a) && decide (a < Config.memSize) && decide (v ≠ Memory.unlisted) && Memory.wfFrom (a + 1) m

/-- The canonical form: addresses strictly rising and below 4096, no entry that an unlisted address
would read as. -/
def Memory.wf (m : Memory) : Bool := Memory.wfFrom 0 m

/-- Put a list of bytes at `a`, `a+1`, and so on (the loader's write, R250). -/
def Memory.load : Memory → Nat → List Byte → Memory
  | m, _, [] => m
  | m, a, v :: vs => Memory.load (m.write a v) (a + 1) vs

/-! ## One count of a timer (spec/10_state.md R30) -/

/-- One count of a timer: down by one while non-zero, else it stays at zero (R105). -/
def countDown (b : Byte) : Byte := if b = 0 then 0 else b - 1

namespace State

/-- `MemRead(addr, 1)` (R52). -/
def readMem (s : State) (a : Addr) : Byte := s.mem.read a.toNat

/-- `MemWrite(addr, 1, v)` (R53). -/
def writeMem (s : State) (a : Addr) (b : Byte) : State := { s with mem := s.mem.write a.toNat b }

/-- `Fetch16(a)`: big-endian, the second byte at `(a+1) mod 4096` (R54, R56, R57). -/
def fetch16 (s : State) (a : Addr) : Word := wordOfBytes (s.readMem a) (s.readMem (a + 1))

/-- Put an instruction word at `a`, high byte first (R54). -/
def storeWord (s : State) (a : Addr) (w : Word) : State :=
  (s.writeMem a (hiByte w)).writeMem (a + 1) (loByte w)

/-! ## Registers (spec/10_state.md R21 to R27) -/

/-- `V[x]` (R21). -/
def readV (s : State) (x : Reg) : Byte := s.v[x]

/-- `V[x] <- b` (R21). -/
def writeV (s : State) (x : Reg) (b : Byte) : State := { s with v := s.v.set x b }

/-- `V[15] <- 1 or 0`, the flag (R24). -/
def writeFlag (s : State) (f : Bool) : State := s.writeV flagReg (if f then 1 else 0)

/-- `I <- a` (R26). -/
def setI (s : State) (a : Addr) : State := { s with i := a }

/-- `pc <- a` (R27). -/
def setPc (s : State) (a : Addr) : State := { s with pc := a }

/-- `next`: `pc <- (pc + 2) mod 4096` (R104). -/
def pcNext (s : State) : State := s.setPc (s.pc + 2)

/-- `skip`: `pc <- (pc + 4) mod 4096` (R104, R144). -/
def pcSkip (s : State) : State := s.setPc (s.pc + 4)

/-- `if c then skip else next` (R104, R145). -/
def pcSkipIf (s : State) (c : Bool) : State := if c then s.pcSkip else s.pcNext

/-! ## The call stack (R28) -/

/-- Push, only when `SP < 16`: `STACK[SP] <- a; SP <- SP + 1` (R28). -/
def push (s : State) (a : Addr) : Option State :=
  if h : s.sp.val < 16 then
    some { s with stack := s.stack.set s.sp.val a h, sp := ⟨s.sp.val + 1, Nat.succ_lt_succ h⟩ }
  else none

/-- Pop, only when `SP > 0`: `SP <- SP - 1; value = STACK[SP]`; the cell keeps its contents (R28). -/
def pop (s : State) : Option (Addr × State) :=
  match s.sp with
  | ⟨0, _⟩ => none
  | ⟨k + 1, h⟩ => some (s.stack[k]'(Nat.lt_of_succ_lt_succ h), { s with sp := ⟨k, Nat.lt_of_succ_lt h⟩ })

/-! ## Timers (R30, R105) -/

/-- `DT <- b` (R30). -/
def setDt (s : State) (b : Byte) : State := { s with dt := b }

/-- `ST <- b` (R30). -/
def setSt (s : State) (b : Byte) : State := { s with st := b }

/-- Part 7 of a step: each timer counts once (R101, R105). -/
def tickTimers (s : State) : State := (s.setDt (countDown s.dt)).setSt (countDown s.st)

/-! ## The value a step returns, and the environment's answers (R34 to R36, R253) -/

/-- Give the driver `r`. -/
def setReply (s : State) (r : Reply) : State := { s with reply := r }

/-- `dc <- value` (R11, R107). -/
def setDc (s : State) (dc : DisplayChange) : State := s.setReply (.returned dc)

/-- `hold`: the step does not happen, the driver gets "held", nothing else changes (R108, R229). -/
def hold (s : State) : State := s.setReply .held

/-- The environment's answers to the Advance request in progress: the first listed one, or a free
value (R34, R35; log 4). -/
def input (s : State) : StepInput :=
  match s.inputs with
  | [] => Config.freeInput s.requests
  | inp :: _ => inp

/-- The request in progress is over: its answers are used up, consulted or not (R253; log 4). -/
def endRequest (s : State) : State := { s with inputs := s.inputs.tail, requests := s.requests + 1 }

/-! ## The frame of a step (spec/40_step_cycle.md R101) -/

/-- Part 3: `dc = NONE`. -/
def beginStep (s : State) : State := s.setDc .unchanged

/-- Parts 7 and 8: the timers count unless the step was held, which is no step (R105, R108). -/
def endStep (s : State) : State :=
  match s.reply with
  | .held => s.endRequest
  | .nothing => s.tickTimers.endRequest
  | .returned _ => s.tickTimers.endRequest

/-- Parts 1 and 2: the instruction at pc (R54, R83). -/
def instrAtPc (s : State) : Instr := decode (s.fetch16 s.pc)

/-! ## Reset and load (spec/70_reset_and_hazards.md R250, R251) -/

/-- `MEM = LOWMEM ++ IMAGE ++ zeros` (R37, R58). -/
def resetMemory (lowmem : Vector Byte Config.lowmemSize) (image : List Byte) : Memory :=
  Memory.load (Memory.load [] 0 lowmem.toList) Config.progBase.toNat image

/-- `Reset(LOWMEM, IMAGE)`: none when the image does not fit (R251), else every piece of core state at
its value of R37 and the core started. What belongs to the environment or is fixed stays (log 6). -/
def resetWith (s : State) (lowmem : Vector Byte Config.lowmemSize) (image : List Byte) : Option State :=
  if imageFits image then
    some { State.reset with
      mem := resetMemory lowmem image, inputs := s.inputs, requests := s.requests, params := s.params }
  else none

end State

/-- Close a step around the meaning of its instruction (R101). -/
def completeStep : Result → Result
  | .next t => .next t.endStep
  | .fault r => .fault r
  | .refused r => .refused r

end Sys2Proof.Machine
end

