-- ==== Sys2Proof/Machine/Operands.lean ====
section
/-! DEFINITION. Operand forms and the values instructions compute: effective addresses, saturating
sums, digits, pixels, and the questions put to the environment. -/

namespace Sys2Proof.Machine

/-! ## Results (spec/44_load_and_alu.md R160; spec/45_address_register.md; spec/47_memory_transfer.md) -/

/-- `min(a + b, 255)` (R151, R156). -/
def satAdd (a b : Byte) : Byte := BitVec.ofNat 8 (min (a.toNat + b.toNat) 255)

/-- `a - b`, 0 on underflow (R157). -/
def satSub (a b : Byte) : Byte := if a.toNat < b.toNat then 0 else a - b

/-- `(a << 1) mod 256` (R158). -/
def shiftLeftOne (a : Byte) : Byte := a <<< 1

/-- `min(I + b, 0xFFF)` (R171). -/
def satAddAddr (a : Addr) (b : Byte) : Addr := BitVec.ofNat 12 (min (a.toNat + b.toNat) Config.iMax)

/-- `v mod 10` (R200). -/
def bcdOnes (b : Byte) : Byte := BitVec.ofNat 8 (b.toNat % 10)

/-- `(v div 10) mod 10` (R200). -/
def bcdTens (b : Byte) : Byte := BitVec.ofNat 8 (b.toNat / 10 % 10)

/-- `v div 100` (R200). -/
def bcdHundreds (b : Byte) : Byte := BitVec.ofNat 8 (b.toNat / 100)

/-- `(FONT_BASE + GLYPH_STRIDE * v) mod 4096`, the index not masked (R172). -/
def glyphAddr (p : Params) (b : Byte) : Addr := BitVec.ofNat 12 (p.fontBase.toNat + p.glyphStride * b.toNat)

/-- `(nnn + v) mod 4096` (R133). -/
def indexedTarget (nnn : Addr) (b : Byte) : Addr := BitVec.ofNat 12 (nnn.toNat + b.toNat)

/-! ## Pixels (spec/41_display.md R121, R123) -/

/-- The pixels of one sprite byte at row `py`: bit 7 is offset 0; coordinates are exact sums. -/
def rowPixels (px py : Nat) (b : Byte) : List Pixel :=
  (List.range 8).filterMap fun k => if b.getLsbD (7 - k) then some ⟨px + k, py⟩ else none

namespace State

/-- `EA(k) = (I + k) mod 4096`, the only data addressing mode (R55, R204). -/
def ea (s : State) (k : Nat) : Addr := s.i + BitVec.ofNat 12 k

/-- The return address of a CALL: `(pc + 2) mod 4096` (R132). -/
def returnAddr (s : State) : Addr := s.pc + 2

/-- The pixels of `n` sprite rows at I, ascending row then ascending offset (R121, R123). -/
def spritePixels (s : State) (x y : Reg) (n : Nat) : List Pixel :=
  (List.range n).flatMap fun r => rowPixels (s.readV x).toNat ((s.readV y).toNat + r) (s.readMem (s.ea r))

/-- `for i = 0 to n-1: MemWrite(EA(i), 1, V[i])`, ascending (R201). -/
def storeRegs : Nat → State → State
  | 0, s => s
  | n + 1, s =>
    let t := storeRegs n s
    t.writeMem (t.ea n) (t.readV (Fin.ofNat 16 n))

/-- `for i = 0 to n-1: V[i] <- MemRead(EA(i), 1)`, ascending (R202). -/
def loadRegs : Nat → State → State
  | 0, s => s
  | n + 1, s =>
    let t := loadRegs n s
    t.writeV (Fin.ofNat 16 n) (t.readMem (t.ea n))

/-- `Rand` (R34). -/
def rand (s : State) : Byte := s.input.rand

/-- `KeyPressed(k)`, total on 0..255 (R35, R181). -/
def keyPressed (s : State) (k : Byte) : Bool := s.input.pressed.contains k

/-- `KeyWait` (R35, R184). -/
def keyWait (s : State) : Option Byte := s.input.keyWait

end State

end Sys2Proof.Machine
end

