-- ==== Sys2Proof/Machine/Flags.lean ====
section
/-! DEFINITION. The four flag computations (spec/10_state.md R24), each a comparison of exact values. -/

namespace Sys2Proof.Machine

/-- ADD Vx, Vy: `Vx + Vy > 255` (R156). -/
def carryFlag (a b : Byte) : Bool := decide (255 < a.toNat + b.toNat)

/-- SUB Vx, Vy: a borrow occurs, `Vy > Vx` (R157). -/
def borrowFlag (a b : Byte) : Bool := decide (a.toNat < b.toNat)

/-- SHL Vx: bit 7 of the old `Vx` (R158). -/
def shiftedOutFlag (a : Byte) : Bool := a.getLsbD 7

/-- ADD I, Vx: `I + Vx > 0xFFF` (R171). -/
def addrOverflowFlag (a : Addr) (b : Byte) : Bool := decide (Config.iMax < a.toNat + b.toNat)

end Sys2Proof.Machine
end

