-- ==== Sys2Proof/Machine/Address.lean ====
section
/-! DEFINITION. The address register instructions (spec/45_address_register.md). -/

namespace Sys2Proof.Machine

/-- LD I, nnn (R170). -/
def execLdI (nnn : Addr) (s : State) : Result := .next (s.setI nnn).pcNext

/-- ADD I, Vx: saturating at 0xFFF, VF written after I (R171, R25). -/
def execAddI (x : Reg) (s : State) : Result :=
  .next ((s.setI (satAddAddr s.i (s.readV x))).writeFlag (addrOverflowFlag s.i (s.readV x))).pcNext

/-- LD F, Vx (R172). -/
def execLdF (x : Reg) (s : State) : Result := .next (s.setI (glyphAddr s.params (s.readV x))).pcNext

end Sys2Proof.Machine
end

