-- ==== Sys2Proof/Machine/Alu.lean ====
section
/-! DEFINITION. Register loads and the ALU (spec/44_load_and_alu.md). -/

namespace Sys2Proof.Machine

/-- LD Vx, nn (R150). -/
def execLdImm (x : Reg) (nn : Byte) (s : State) : Result := .next (s.writeV x nn).pcNext

/-- ADD Vx, nn: saturating, no flag (R151). -/
def execAddImm (x : Reg) (nn : Byte) (s : State) : Result := .next (s.writeV x (satAdd (s.readV x) nn)).pcNext

/-- LD Vx, Vy (R152). -/
def execLdReg (x y : Reg) (s : State) : Result := .next (s.writeV x (s.readV y)).pcNext

/-- OR Vx, Vy: no flag (R153). -/
def execOrReg (x y : Reg) (s : State) : Result := .next (s.writeV x (s.readV x ||| s.readV y)).pcNext

/-- AND Vx, Vy: no flag (R154). -/
def execAndReg (x y : Reg) (s : State) : Result := .next (s.writeV x (s.readV x &&& s.readV y)).pcNext

/-- XOR Vx, Vy: no flag (R155). -/
def execXorReg (x y : Reg) (s : State) : Result := .next (s.writeV x (s.readV x ^^^ s.readV y)).pcNext

/-- ADD Vx, Vy: operands read first, then `Vx`, then VF last (R156, R25). -/
def execAddReg (x y : Reg) (s : State) : Result :=
  .next ((s.writeV x (satAdd (s.readV x) (s.readV y))).writeFlag (carryFlag (s.readV x) (s.readV y))).pcNext

/-- SUB Vx, Vy: operands read first, then `Vx`, then VF last (R157, R25). -/
def execSubReg (x y : Reg) (s : State) : Result :=
  .next ((s.writeV x (satSub (s.readV x) (s.readV y))).writeFlag (borrowFlag (s.readV x) (s.readV y))).pcNext

/-- SHL Vx: the top bit captured first, VF written last; `y` is neither read nor written (R158, R25, R92). -/
def execShl (x _y : Reg) (s : State) : Result :=
  .next ((s.writeV x (shiftLeftOne (s.readV x))).writeFlag (shiftedOutFlag (s.readV x))).pcNext

end Sys2Proof.Machine
end

