-- ==== Sys2Proof/Machine/Control.lean ====
section
/-! DEFINITION. RET, JP nnn, CALL nnn and JP V0, nnn (spec/42_control_transfer.md). -/

namespace Sys2Proof.Machine

/-- RET: pop into pc, nothing added; pc unchanged when the stack is empty (R130). -/
def execRet (s : State) : Result :=
  .next (match s.pop with
    | some (a, t) => t.setPc a
    | none => s)

/-- JP nnn: `pc <- nnn` (R131). -/
def execJp (nnn : Addr) (s : State) : Result := .next (s.setPc nnn)

/-- CALL nnn: push the return address and go to `nnn`; dropped when the stack is full (R132). -/
def execCall (nnn : Addr) (s : State) : Result :=
  .next (match s.push s.returnAddr with
    | some t => t.setPc nnn
    | none => s.pcNext)

/-- JP V0, nnn: `pc <- (nnn + V[0]) mod 4096` (R133). -/
def execJpV0 (nnn : Addr) (s : State) : Result := .next (s.setPc (indexedTarget nnn (s.readV 0)))

end Sys2Proof.Machine
end

