-- ==== Sys2Proof/Machine/Display.lean ====
section
/-! DEFINITION. CLS and DRW (spec/41_display.md). -/

namespace Sys2Proof.Machine

/-- CLS: `dc <- CLEAR; next` (R120). -/
def execCls (s : State) : Result := .next (s.setDc .clear).pcNext

/-- DRW Vx, Vy, n: `dc <- TOGGLE(pixels); next`; no flag, no register (R121). -/
def execDrw (x y : Reg) (n : Fin 16) (s : State) : Result :=
  .next (s.setDc (.toggle (s.spritePixels x y n.val))).pcNext

end Sys2Proof.Machine
end

