-- ==== Sys2Proof/Machine/Environment.lean ====
section
/-! DEFINITION. Random, timer and input instructions (spec/46_random_timers_input.md). -/

namespace Sys2Proof.Machine

/-- RND Vx, nn: `V[x] <- Rand & nn` (R180). -/
def execRnd (x : Reg) (nn : Byte) (s : State) : Result := .next (s.writeV x (s.rand &&& nn)).pcNext

/-- SKP Vx: the whole 8-bit value is the key code (R181). -/
def execSkp (x : Reg) (s : State) : Result := .next (s.pcSkipIf (s.keyPressed (s.readV x)))

/-- SKNP Vx (R182). -/
def execSknp (x : Reg) (s : State) : Result := .next (s.pcSkipIf (!s.keyPressed (s.readV x)))

/-- LD Vx, DT: the value before this step's decrement (R183, R106). -/
def execLdVxDt (x : Reg) (s : State) : Result := .next (s.writeV x s.dt).pcNext

/-- LD Vx, K: a hold while no key is reported, else the key code, unmasked (R184, R108). -/
def execLdVxK (x : Reg) (s : State) : Result :=
  .next (match s.keyWait with
    | none => s.hold
    | some k => (s.writeV x k).pcNext)

/-- LD DT, Vx (R185). -/
def execLdDt (x : Reg) (s : State) : Result := .next (s.setDt (s.readV x)).pcNext

/-- LD ST, Vx (R186). -/
def execLdSt (x : Reg) (s : State) : Result := .next (s.setSt (s.readV x)).pcNext

end Sys2Proof.Machine
end

