-- ==== Sys2Proof/Machine/Skip.lean ====
section
/-! DEFINITION. The conditional skips on registers (spec/43_skips.md). -/

namespace Sys2Proof.Machine

/-- SE Vx, nn (R140). -/
def execSeImm (x : Reg) (nn : Byte) (s : State) : Result := .next (s.pcSkipIf (s.readV x == nn))

/-- SNE Vx, nn (R141). -/
def execSneImm (x : Reg) (nn : Byte) (s : State) : Result := .next (s.pcSkipIf (s.readV x != nn))

/-- SE Vx, Vy (R142). -/
def execSeReg (x y : Reg) (s : State) : Result := .next (s.pcSkipIf (s.readV x == s.readV y))

/-- SNE Vx, Vy (R143). -/
def execSneReg (x y : Reg) (s : State) : Result := .next (s.pcSkipIf (s.readV x != s.readV y))

end Sys2Proof.Machine
end

