-- ==== Sys2Proof/Machine/Transfer.lean ====
section
/-! DEFINITION. Memory transfer instructions (spec/47_memory_transfer.md); none changes I (R203). -/

namespace Sys2Proof.Machine

/-- LD B, Vx: ones at EA(0), tens at EA(1), hundreds at EA(2) (R200). -/
def execLdB (x : Reg) (s : State) : Result :=
  .next (((s.writeMem (s.ea 0) (bcdOnes (s.readV x))).writeMem (s.ea 1) (bcdTens (s.readV x))).writeMem
    (s.ea 2) (bcdHundreds (s.readV x))).pcNext

/-- LD [I], Vx: registers 0..x inclusive (R201). -/
def execStoreRegs (x : Reg) (s : State) : Result := .next (s.storeRegs (x.val + 1)).pcNext

/-- LD Vx, [I]: registers 0..x inclusive (R202). -/
def execLoadRegs (x : Reg) (s : State) : Result := .next (s.loadRegs (x.val + 1)).pcNext

end Sys2Proof.Machine
end

