-- ==== Sys2Proof/Machine/Unrecognized.lean ====
section
/-! DEFINITION. The unrecognized instruction (spec/48_unrecognized.md). -/

namespace Sys2Proof.Machine

/-- UNRECOGNIZED: `next` and nothing else (R210). -/
def execUnrecognized (s : State) : Result := .next s.pcNext

end Sys2Proof.Machine
end

