-- ==== Sys2Proof/Machine/Step.lean ====
section
/-! DEFINITION. One step of the machine (spec/40_step_cycle.md R101): what an Advance request that the driver may
make runs. Whether it may make one (R252) is `serve`'s question (Machine/Driver.lean). -/

namespace Sys2Proof.Machine

/-- Fetch and decode at pc, `dc = NONE`, execute and update pc, count the timers, return `dc`; or a hold
(R101, R108). The instruction is decoded before anything it stores (R63). -/
def step (s : State) : Host.Outcome State Fault Refusal := completeStep (exec s.instrAtPc s.beginStep)

/-- `s` with the instruction word `w` (its low `nbits` bits, the bits above them 0) at pc, high byte
first: the word the next step fetches (R54; log 10). -/
def State.withFetchWord (s : State) (nbits w : Nat) : State := s.storeWord s.pc (BitVec.ofNat 16 (w % 2 ^ nbits))

end Sys2Proof.Machine
end

