-- ==== Sys2Proof/Machine/Driver.lean ====
section
/-! DEFINITION. What the driver may do to the machine, completely (spec/70_reset_and_hazards.md R253). To stop
asking is to make no request: the state is kept (R244, R256). -/

namespace Sys2Proof.Machine

/-- The two requests of R253. -/
inductive Request where
  /-- `Reset(LOWMEM, IMAGE)`, at any time between steps. -/
  | reset (lowmem : Vector Byte Config.lowmemSize) (image : List Byte)
  /-- `Advance(Rand, KeyPressed, KeyWait)`, after a reset: one step, or nothing if held. -/
  | advance (input : StepInput)
  deriving DecidableEq, Repr

/-- The machine serves one request. A refused Reset leaves the driver with the state it had (R251), so a core
not yet started stays so. Before the first Reset an Advance is refused (R252). The three answers an Advance
carries are those its own step consults (R253). -/
def serve (r : Request) (s : State) : Result :=
  match r with
  | .reset lowmem image =>
    match s.resetWith lowmem image with
    | some t => .next t
    | none => .refused .imageTooLong
  | .advance input => if s.started then step { s with inputs := input :: s.inputs } else .refused .notYetReset

end Sys2Proof.Machine
end

