-- ==== Sys2Proof/Safety.lean ====
section
/-! DEFINITION. The terms claims are stated in: pieces of state and frames, runs, the invariant of the
machine, and which registers an instruction may write. -/

namespace Sys2Proof.Machine

/-- One piece of state, at the grain of one register, one stack cell or one byte of memory. -/
inductive Part where
  | v (x : Reg)
  | i
  | pc
  | sp
  | stack (k : Fin 16)
  | dt
  | st
  | mem (a : Addr)
  | reply
  | inputs
  | requests
  | params
  | started
  deriving DecidableEq, Repr

/-- The piece holds the same in both states. -/
def Part.same : Part → State → State → Prop
  | .v x, s, t => t.readV x = s.readV x
  | .i, s, t => t.i = s.i
  | .pc, s, t => t.pc = s.pc
  | .sp, s, t => t.sp = s.sp
  | .stack k, s, t => t.stack[k] = s.stack[k]
  | .dt, s, t => t.dt = s.dt
  | .st, s, t => t.st = s.st
  | .mem a, s, t => t.readMem a = s.readMem a
  | .reply, s, t => t.reply = s.reply
  | .inputs, s, t => t.inputs = s.inputs
  | .requests, s, t => t.requests = s.requests
  | .params, s, t => t.params = s.params
  | .started, s, t => t.started = s.started

/-- THE FRAME: every piece of state that is not listed is the same in `t` as in `s`; every register,
every stack cell and every byte of memory by itself. -/
def ChangesOnly (s t : State) (ps : List Part) : Prop := ∀ p, p ∉ ps → p.same s t

/-- pc moves on by `k`, modulo 4096 (R104). -/
def Advances (s t : State) (k : Nat) : Prop := t.pc.toNat = (s.pc.toNat + k) % 4096

/-- `n` Advance requests answered by the answers State lists. -/
abbrev runSteps (n : Nat) (s : State) : Result := Host.Core.run Sys2Proof.core n s

/-- A run is safe when no step of it ends in a fault or a refusal. Every run is (R102, R220). -/
def SafeRun (n : Nat) (s : State) : Prop := ∃ t, runSteps n s = .next t

/-- What R121 and R122 promise of a display change: exact coordinates in range, no pixel twice, at most 120. -/
def DisplayChange.legal : DisplayChange → Prop
  | .unchanged => True
  | .clear => True
  | .toggle ps => ps.Nodup ∧ ps.length ≤ 120 ∧ ∀ p ∈ ps, p.px ≤ 262 ∧ p.py ≤ 270

/-- What the driver is given is legal. -/
def Reply.legal : Reply → Prop
  | .nothing => True
  | .held => True
  | .returned dc => dc.legal

/-- THE INVARIANT: memory is in its canonical form, every listed address below 4096, and what the driver
was given is legal. The ranges of V, I, pc, SP, STACK, DT and ST (R20, R29, R162, R173) are their types. -/
def State.Inv (s : State) : Prop := s.mem.wf = true ∧ s.reply.legal

/-- The instructions that write VF as a flag (R24). -/
def writesFlag : Instr → Bool
  | .addReg _ _ => true
  | .subReg _ _ => true
  | .shl _ _ => true
  | .addI _ => true
  | _ => false

/-- The registers an instruction names as its destination (R22), read from the rule's list. -/
def destRegs : Instr → List Reg
  | .ldImm x _ => [x]
  | .addImm x _ => [x]
  | .ldReg x _ => [x]
  | .orReg x _ => [x]
  | .andReg x _ => [x]
  | .xorReg x _ => [x]
  | .addReg x _ => [x]
  | .subReg x _ => [x]
  | .shl x _ => [x]
  | .rnd x _ => [x]
  | .ldVxDt x => [x]
  | .ldVxK x => [x]
  | .loadRegs x => (List.range (x.val + 1)).map (Fin.ofNat 16)
  | _ => []

/-- Registers an instruction may write: its destinations, and VF where it writes the flag (R22, R24). -/
def writtenRegs (i : Instr) : List Reg := if writesFlag i then flagReg :: destRegs i else destRegs i

/-- The instructions that consult an answer of the environment (R34, R35). -/
def consultsEnvironment : Instr → Bool
  | .rnd _ _ => true
  | .skp _ => true
  | .sknp _ => true
  | .ldVxK _ => true
  | _ => false

end Sys2Proof.Machine
end

