-- ==== Sys2Proof/Certificates/Slice0/Obligations.lean ====
section
/-! DEFINITION. The statements for the provers, rule by rule of spec/. Every one is about all states (or all
words, all instructions) unless it says otherwise; `ChangesOnly` is the frame: whatever is not listed is
unchanged, register by register and byte by byte. -/

open Sys2Proof Sys2Proof.Machine

/-! ## Display (spec/41_display.md) -/

/-- R120: CLS returns the full clear, moves pc by 2 and changes nothing else. -/
def Obligations.ClsReturnsFullClear : Prop :=
  ∀ s : State, ∃ t, exec .cls s = .next t ∧
    t.reply = .returned .clear ∧ Advances s t 2 ∧ ChangesOnly s t [.pc, .reply]

/-- R121: DRW returns the toggle of exactly the set bits of its `n` rows, at exact coordinates, without
duplicates and at most `8 * n` of them; no register, no flag, no I and no memory changes.
The exact coordinates and the unwritten VF are the spec's own decision D13, the TOGGLE form even when empty
is D14, and the wrap of EA is D6. -/
def Obligations.DrwTogglesExactlyTheSetBits : Prop :=
  ∀ (s : State) (x y : Reg) (n : Fin 16), ∃ t ps, exec (.drw x y n) s = .next t ∧
    t.reply = .returned (.toggle ps) ∧
    (∀ p : Pixel, p ∈ ps ↔ ∃ r k, r < n.val ∧ k < 8 ∧ (s.readMem (s.ea r)).getLsbD (7 - k) = true ∧
      p = ⟨(s.readV x).toNat + k, (s.readV y).toNat + r⟩) ∧
    ps.Nodup ∧ ps.length ≤ 8 * n.val ∧ Advances s t 2 ∧ ChangesOnly s t [.pc, .reply]

/-! ## Control transfer (spec/42_control_transfer.md) -/

/-- R130: RET takes the newest entry exactly and keeps the popped cell; on an empty stack it leaves pc.
The empty-stack case is the spec's own decision D9, the kept contents of the popped cell its decision D27. -/
def Obligations.RetPopsNewestEntryOrLeavesPc : Prop :=
  ∀ s : State, ∃ t, exec .ret s = .next t ∧
    (∀ k : Fin 16, s.sp.val = k.val + 1 → t.sp.val = k.val ∧ t.pc = s.stack[k]) ∧
    (s.sp.val = 0 → t.sp = s.sp ∧ t.pc = s.pc) ∧
    ChangesOnly s t [.pc, .sp]

/-- R131, R133: JP sets pc to the address exactly; JP V0 sets it to `(nnn + V0) mod 4096`.
The reduction of the indexed target is the spec's own decision D4. -/
def Obligations.JumpsSetPcToTheirTarget : Prop :=
  ∀ (s : State) (nnn : Addr),
    (∃ t, exec (.jp nnn) s = .next t ∧ t.pc = nnn ∧ ChangesOnly s t [.pc]) ∧
    (∃ t, exec (.jpV0 nnn) s = .next t ∧
      t.pc.toNat = (nnn.toNat + (s.readV 0).toNat) % 4096 ∧ ChangesOnly s t [.pc])

/-- R132: CALL below capacity pushes `(pc + 2) mod 4096` in the first free cell and jumps; on a full stack
it is dropped and pc moves by 2.
The value pushed is the spec's own decision D8. -/
def Obligations.CallPushesReturnAddressOrIsDropped : Prop :=
  ∀ (s : State) (nnn : Addr), ∃ t, exec (.call nnn) s = .next t ∧
    (∀ k : Fin 16, s.sp.val = k.val →
      t.stack[k].toNat = (s.pc.toNat + 2) % 4096 ∧ t.sp.val = k.val + 1 ∧ t.pc = nnn ∧
      ChangesOnly s t [.pc, .sp, .stack k]) ∧
    (s.sp.val = 16 → Advances s t 2 ∧ ChangesOnly s t [.pc])

/-! ## Skips (spec/43_skips.md, spec/46_random_timers_input.md) -/

/-- R140 to R143, R145: each register skip moves pc by 4 when its condition holds and by 2 otherwise, for
all operand combinations, and changes nothing else. -/
def Obligations.RegisterSkipsMoveFourOrTwo : Prop :=
  ∀ (s : State) (x y : Reg) (nn : Byte),
    (∃ t, exec (.seImm x nn) s = .next t ∧
      Advances s t (if s.readV x = nn then 4 else 2) ∧ ChangesOnly s t [.pc]) ∧
    (∃ t, exec (.sneImm x nn) s = .next t ∧
      Advances s t (if s.readV x ≠ nn then 4 else 2) ∧ ChangesOnly s t [.pc]) ∧
    (∃ t, exec (.seReg x y) s = .next t ∧
      Advances s t (if s.readV x = s.readV y then 4 else 2) ∧ ChangesOnly s t [.pc]) ∧
    (∃ t, exec (.sneReg x y) s = .next t ∧
      Advances s t (if s.readV x ≠ s.readV y then 4 else 2) ∧ ChangesOnly s t [.pc])

/-- R181, R182: the key skips ask the provider about the whole 8-bit value of Vx.
The unmasked query is the spec's own decision D15; where the answer stands is the model's choice (logs 4, 5). -/
def Obligations.KeySkipsAskAboutWholeRegister : Prop :=
  ∀ (s : State) (x : Reg),
    (∃ t, exec (.skp x) s = .next t ∧
      Advances s t (if s.readV x ∈ s.input.pressed then 4 else 2) ∧ ChangesOnly s t [.pc]) ∧
    (∃ t, exec (.sknp x) s = .next t ∧
      Advances s t (if s.readV x ∈ s.input.pressed then 2 else 4) ∧ ChangesOnly s t [.pc])

/-! ## Loads and the ALU (spec/44_load_and_alu.md) -/

/-- R150, R152: the two plain loads.
The semantics of LD Vx, nn and the destination of the copy are the spec's own decisions D30 and D12. -/
def Obligations.LoadsCopyIntoVx : Prop :=
  ∀ (s : State) (x y : Reg) (nn : Byte),
    (∃ t, exec (.ldImm x nn) s = .next t ∧ t.readV x = nn ∧ Advances s t 2 ∧ ChangesOnly s t [.pc, .v x]) ∧
    (∃ t, exec (.ldReg x y) s = .next t ∧ t.readV x = s.readV y ∧ Advances s t 2 ∧ ChangesOnly s t [.pc, .v x])

/-- R151: add-immediate caps at 255 and writes no flag (VF changes only as the destination). -/
def Obligations.AddImmSaturatesWithoutFlag : Prop :=
  ∀ (s : State) (x : Reg) (nn : Byte), ∃ t, exec (.addImm x nn) s = .next t ∧
    (t.readV x).toNat = min ((s.readV x).toNat + nn.toNat) 255 ∧ Advances s t 2 ∧ ChangesOnly s t [.pc, .v x]

/-- R153 to R155: the bitwise operations, bit by bit, with no flag.
That x is the destination is the spec's own decision D12. -/
def Obligations.BitwiseOpsWriteOnlyVx : Prop :=
  ∀ (s : State) (x y : Reg),
    (∃ t, exec (.orReg x y) s = .next t ∧
      (∀ k, k < 8 → (t.readV x).getLsbD k = ((s.readV x).getLsbD k || (s.readV y).getLsbD k)) ∧
      Advances s t 2 ∧ ChangesOnly s t [.pc, .v x]) ∧
    (∃ t, exec (.andReg x y) s = .next t ∧
      (∀ k, k < 8 → (t.readV x).getLsbD k = ((s.readV x).getLsbD k && (s.readV y).getLsbD k)) ∧
      Advances s t 2 ∧ ChangesOnly s t [.pc, .v x]) ∧
    (∃ t, exec (.xorReg x y) s = .next t ∧
      (∀ k, k < 8 → (t.readV x).getLsbD k = ((s.readV x).getLsbD k ^^ (s.readV y).getLsbD k)) ∧
      Advances s t 2 ∧ ChangesOnly s t [.pc, .v x])

/-- R156: the sum capped at 255 in Vx and the carry in VF, written last, so with x = F only the flag stays. -/
def Obligations.AddRegSaturatesAndSetsCarry : Prop :=
  ∀ (s : State) (x y : Reg), ∃ t, exec (.addReg x y) s = .next t ∧
    (x ≠ flagReg → (t.readV x).toNat = min ((s.readV x).toNat + (s.readV y).toNat) 255) ∧
    (t.readV flagReg).toNat = (if 255 < (s.readV x).toNat + (s.readV y).toNat then 1 else 0) ∧
    Advances s t 2 ∧ ChangesOnly s t [.pc, .v x, .v flagReg]

/-- R157: the difference floored at 0 in Vx and the borrow in VF, written last.
That VF is written last is the spec's own decision D11. -/
def Obligations.SubRegFloorsAndSetsBorrow : Prop :=
  ∀ (s : State) (x y : Reg), ∃ t, exec (.subReg x y) s = .next t ∧
    (x ≠ flagReg → (t.readV x).toNat = (s.readV x).toNat - (s.readV y).toNat) ∧
    (t.readV flagReg).toNat = (if (s.readV x).toNat < (s.readV y).toNat then 1 else 0) ∧
    Advances s t 2 ∧ ChangesOnly s t [.pc, .v x, .v flagReg]

/-- R158: the left shift truncated to 8 bits in Vx and the old top bit in VF, written last, for every `y`. -/
def Obligations.ShlTruncatesAndSetsOldTopBit : Prop :=
  ∀ (s : State) (x y : Reg), ∃ t, exec (.shl x y) s = .next t ∧
    (x ≠ flagReg → (t.readV x).toNat = 2 * (s.readV x).toNat % 256) ∧
    (t.readV flagReg).toNat = (s.readV x).toNat / 128 ∧
    Advances s t 2 ∧ ChangesOnly s t [.pc, .v x, .v flagReg]

/-! ## Address register (spec/45_address_register.md) -/

/-- R170: LD I sets I exactly. -/
def Obligations.LdISetsAddressExactly : Prop :=
  ∀ (s : State) (nnn : Addr), ∃ t, exec (.ldI nnn) s = .next t ∧ t.i = nnn ∧ Advances s t 2 ∧
    ChangesOnly s t [.pc, .i]

/-- R171: ADD I saturates at 0xFFF; VF is the overflow, written last on every execution.
The ceiling 0xFFF and the order are the spec's own decisions D5 and D11. -/
def Obligations.AddISaturatesAndSetsOverflow : Prop :=
  ∀ (s : State) (x : Reg), ∃ t, exec (.addI x) s = .next t ∧
    t.i.toNat = min (s.i.toNat + (s.readV x).toNat) 0xFFF ∧
    (t.readV flagReg).toNat = (if 0xFFF < s.i.toNat + (s.readV x).toNat then 1 else 0) ∧
    Advances s t 2 ∧ ChangesOnly s t [.pc, .i, .v flagReg]

/-- R172: LD F maps the whole value of Vx, for every FONT_BASE and GLYPH_STRIDE.
The formula is the spec's own decision D18; that State holds the parameters is the model's choice (log 2). -/
def Obligations.LdFMapsGlyphIndex : Prop :=
  ∀ (s : State) (x : Reg), ∃ t, exec (.ldF x) s = .next t ∧
    t.i.toNat = (s.params.fontBase.toNat + s.params.glyphStride * (s.readV x).toNat) % 4096 ∧
    Advances s t 2 ∧ ChangesOnly s t [.pc, .i]

/-! ## Random, timers, input (spec/46_random_timers_input.md) -/

/-- R180: RND stores the draw of this step masked by `nn`; whatever the draw, no bit outside `nn` is set.
That the draw is a free input is the spec's own decision D17; where it stands is the model's choice (log 4). -/
def Obligations.RndStoresMaskedDraw : Prop :=
  ∀ (s : State) (x : Reg) (nn : Byte), ∃ t, exec (.rnd x nn) s = .next t ∧
    t.readV x = s.input.rand &&& nn ∧ t.readV x &&& ~~~nn = 0 ∧ (t.readV x).toNat ≤ nn.toNat ∧
    Advances s t 2 ∧ ChangesOnly s t [.pc, .v x]

/-- R183, R185, R186 (the copies): each timer instruction copies between Vx and its counter. -/
def Obligations.TimerInstructionsCopy : Prop :=
  ∀ (s : State) (x : Reg),
    (∃ t, exec (.ldVxDt x) s = .next t ∧ t.readV x = s.dt ∧ Advances s t 2 ∧ ChangesOnly s t [.pc, .v x]) ∧
    (∃ t, exec (.ldDt x) s = .next t ∧ t.dt = s.readV x ∧ Advances s t 2 ∧ ChangesOnly s t [.pc, .dt]) ∧
    (∃ t, exec (.ldSt x) s = .next t ∧ t.st = s.readV x ∧ Advances s t 2 ∧ ChangesOnly s t [.pc, .st])

/-- R106 (a), (b): a written timer has already counted at the end of its own step; LD Vx, DT reads the value
DT had at the start of the step.
The order of effect and decrement is the spec's own decision D10. -/
def Obligations.TimerStepsCountAfterTheirEffect : Prop :=
  ∀ (s : State) (x : Reg),
    (s.instrAtPc = .ldDt x → ∃ t, step s = .next t ∧ t.dt.toNat = (s.readV x).toNat - 1 ∧
      t.st.toNat = s.st.toNat - 1) ∧
    (s.instrAtPc = .ldSt x → ∃ t, step s = .next t ∧ t.st.toNat = (s.readV x).toNat - 1 ∧
      t.dt.toNat = s.dt.toNat - 1) ∧
    (s.instrAtPc = .ldVxDt x → ∃ t, step s = .next t ∧ t.readV x = s.dt ∧ t.dt.toNat = s.dt.toNat - 1)

/-- R184: when a key is reported, LD Vx, K stores its code unmasked and goes on.
The contract of the wait is the spec's own decision D16; where the answer stands is the model's choice (log 4). -/
def Obligations.LdKStoresReportedKey : Prop :=
  ∀ (s : State) (x : Reg) (k : Byte), s.input.keyWait = some k →
    ∃ t, exec (.ldVxK x) s = .next t ∧ t.readV x = k ∧ Advances s t 2 ∧ ChangesOnly s t [.pc, .v x]

/-- R108: with no key to report the step does not happen: pc, the timers and all other core state stay, and
the driver gets "held". Only the answers of this request are used up.
The hold is the spec's own decision D16; that it is a next state with the reply `held` is the model's choice (log 3). -/
def Obligations.HeldStepChangesNoCoreState : Prop :=
  ∀ (s : State) (x : Reg), s.instrAtPc = .ldVxK x → s.input.keyWait = none →
    ∃ t, step s = .next t ∧ t.reply = .held ∧ ChangesOnly s t [.reply, .inputs, .requests]

/-! ## Memory transfer (spec/47_memory_transfer.md) -/

/-- R200: LD B writes ones, tens and hundreds of Vx to EA(0), EA(1), EA(2), and no other byte. -/
def Obligations.LdBWritesDecimalDigits : Prop :=
  ∀ (s : State) (x : Reg), s.mem.wf = true → ∃ t, exec (.ldB x) s = .next t ∧
    (t.readMem (s.ea 0)).toNat = (s.readV x).toNat % 10 ∧
    (t.readMem (s.ea 1)).toNat = (s.readV x).toNat / 10 % 10 ∧
    (t.readMem (s.ea 2)).toNat = (s.readV x).toNat / 100 ∧
    Advances s t 2 ∧ ChangesOnly s t [.pc, .mem (s.ea 0), .mem (s.ea 1), .mem (s.ea 2)]

/-- R201: LD [I], Vx stores register `k` at EA(k) for every `k` up to x inclusive, and no other byte. -/
def Obligations.StoreRegsCopiesToMemory : Prop :=
  ∀ (s : State) (x : Reg), s.mem.wf = true → ∃ t, exec (.storeRegs x) s = .next t ∧
    (∀ k : Reg, k ≤ x → t.readMem (s.ea k.val) = s.readV k) ∧ Advances s t 2 ∧
    ChangesOnly s t (.pc :: (List.range (x.val + 1)).map fun k => .mem (s.ea k))

/-- R202: LD Vx, [I] loads register `k` from EA(k) for every `k` up to x inclusive, and no other register. -/
def Obligations.LoadRegsCopiesFromMemory : Prop :=
  ∀ (s : State) (x : Reg), ∃ t, exec (.loadRegs x) s = .next t ∧
    (∀ k : Reg, k ≤ x → t.readV k = s.readMem (s.ea k.val)) ∧ Advances s t 2 ∧
    ChangesOnly s t (.pc :: (List.range (x.val + 1)).map fun k => .v (Fin.ofNat 16 k))

/-- R205: a block store and a later block load with the same I and the stored bytes untouched give the
registers back; LD B followed by LD V2, [I] gives the digits.
The rule is marked as derived in the spec. -/
def Obligations.StoreThenLoadGivesValuesBack : Prop :=
  ∀ (s t u : State) (x : Reg), s.mem.wf = true → u.i = s.i →
    (exec (.storeRegs x) s = .next t → (∀ k, k ≤ x.val → u.readMem (s.ea k) = t.readMem (s.ea k)) →
      ∃ w, exec (.loadRegs x) u = .next w ∧ ∀ k : Reg, k ≤ x → w.readV k = s.readV k) ∧
    (exec (.ldB x) s = .next t → (∀ k, k ≤ 2 → u.readMem (s.ea k) = t.readMem (s.ea k)) →
      ∃ w, exec (.loadRegs 2) u = .next w ∧ (w.readV 0).toNat = (s.readV x).toNat % 10 ∧
        (w.readV 1).toNat = (s.readV x).toNat / 10 % 10 ∧ (w.readV 2).toNat = (s.readV x).toNat / 100)

/-! ## Unrecognized (spec/48_unrecognized.md) -/

/-- R210: no state change but pc, which moves by 2. -/
def Obligations.UnrecognizedOnlyAdvances : Prop :=
  ∀ s : State, ∃ t, exec .unrecognized s = .next t ∧ Advances s t 2 ∧ ChangesOnly s t [.pc]

/-! ## Memory (spec/20_memory.md) -/

/-- R55, R59: the effective address of byte `k` is `(I + k) mod 4096`, and within one instruction (`k` up to
15) all addresses are distinct.
The masking is the spec's own decision D6. -/
def Obligations.EffectiveAddressesWrapAndAreDistinct : Prop :=
  ∀ s : State, (∀ k, (s.ea k).toNat = (s.i.toNat + k) % 4096) ∧
    ∀ j k, j ≤ 15 → k ≤ 15 → s.ea j = s.ea k → j = k

/-- R54, R56: the fetch is big-endian and its second byte comes from `(a + 1) mod 4096`. -/
def Obligations.FetchIsBigEndianAndWraps : Prop :=
  ∀ (s : State) (a : Addr), (s.fetch16 a).toNat =
    256 * (s.readMem a).toNat + (s.readMem (BitVec.ofNat 12 ((a.toNat + 1) % 4096))).toNat

/-- R61: after any sequence of stores, a read gives the most recent byte stored to that address, or what was
there before if none was. -/
def Obligations.ReadsSeeTheMostRecentStore : Prop :=
  ∀ (s : State) (ws : List (Addr × Byte)) (a : Addr), s.mem.wf = true →
    (ws.foldl (fun u w => u.writeMem w.1 w.2) s).readMem a =
      match ws.reverse.find? (fun w => w.1 == a) with
      | some w => w.2
      | none => s.readMem a

/-- R63: a word stored just after the storing instruction is the word the very next step runs.
That the coherence is immediate is the spec's own decision D29. -/
def Obligations.StoredCodeRunsInTheNextStep : Prop :=
  ∀ (s : State) (x : Reg), s.mem.wf = true → s.instrAtPc = .storeRegs x → 1 ≤ x.val → s.i = s.pc + 2 →
    ∃ t, step s = .next t ∧ t.pc = s.i ∧ t.instrAtPc = decode (wordOfBytes (s.readV 0) (s.readV 1)) ∧
      step t = completeStep (exec (decode (wordOfBytes (s.readV 0) (s.readV 1))) t.beginStep)

/-! ## Encoding (spec/30_encoding.md) -/

/-- R82: each field is the mask of the word, then the shift. -/
def Obligations.FieldsAreMaskedThenShifted : Prop :=
  ∀ w : Word,
    (fieldF w).toNat = (w.toNat &&& 0xF000) >>> 12 ∧ (fieldX w).val = (w.toNat &&& 0x0F00) >>> 8 ∧
    (fieldY w).val = (w.toNat &&& 0x00F0) >>> 4 ∧ (fieldNNN w).toNat = w.toNat &&& 0x0FFF ∧
    (fieldNN w).toNat = w.toNat &&& 0x00FF ∧ (fieldN w).val = w.toNat &&& 0x000F

/-- R85: no word matches two rows of the opcode map.
The rule is marked as derived in the spec. -/
def Obligations.OpcodeRowsAreDisjoint : Prop :=
  opmap.Pairwise fun r q => ∀ w : Word, ¬(r.accepts w = true ∧ q.accepts w = true)

/-- R84: the map decodes every word as the dispatch by family, then by the bottom 4 or 8 bits, does.
Matching the whole word in family 0, and n = 0 in families 5 and 9, are the spec's own decision D2. -/
def Obligations.DecoderFollowsDispatchOrder : Prop := ∀ w : Word, decode w = decodeByFamily w

/-- R88, R89: the unrecognised words, family by family, and no others.
The set is the spec's own decisions D1, D2 and D3; log 11 marks the opcode numbers PRESUMED. -/
def Obligations.UnrecognizedWordsExactly : Prop :=
  ∀ w : Word, decode w = .unrecognized ↔
    (w.toNat / 4096 = 0x0 ∧ w.toNat % 4096 ≠ 0x0E0 ∧ w.toNat % 4096 ≠ 0x0EE) ∨
    (w.toNat / 4096 = 0x5 ∧ w.toNat % 16 ≠ 0) ∨
    (w.toNat / 4096 = 0x8 ∧ w.toNat % 16 ∈ [0x6, 0x7, 0x8, 0x9, 0xA, 0xB, 0xC, 0xD, 0xF]) ∨
    (w.toNat / 4096 = 0x9 ∧ w.toNat % 16 ≠ 0) ∨
    (w.toNat / 4096 = 0xE ∧ w.toNat % 256 ∉ [0x9E, 0xA1]) ∨
    (w.toNat / 4096 = 0xF ∧ w.toNat % 256 ∉ [0x07, 0x0A, 0x15, 0x18, 0x1E, 0x29, 0x33, 0x55, 0x65])

/-- R95 and the decoder vectors of spec/95_test_vectors.md: a few words and what they stand for.
The opcode numbers of the words outside families A and D are the spec's own decision D1, which log 11 marks
PRESUMED. -/
def Obligations.SampleWordsDecodeAsWritten : Prop :=
  decode 0b1010001000000000 = .ldI 0x200 ∧ decode 0b1101000000000001 = .drw 0 0 1 ∧
    decode 0b1000101010110100 = .addReg 0xA 0xB ∧ decode 0b0011110001111111 = .seImm 0xC 0x7F ∧
    decode 0b1111010100110011 = .ldB 5 ∧ decode 0b1000101010110110 = .unrecognized ∧
    decode 0b0000000011101110 = .ret ∧ decode 0b1110001010100001 = .sknp 2 ∧ decode 0b1100001100001111 = .rnd 3 0x0F

/-- DECODE AND ENCODE AGREE: for every well-formed instruction, with every operand at every value, decoding
its two bytes gives it back, whatever bytes follow.
The word encoding UNRECOGNIZED and the kept y of SHL are the model's choices (logs 7, 8). -/
def Obligations.DecodeOfEncodeGivesInstructionBack : Prop :=
  ∀ (i : Instr) (rest : List Byte), i.wellFormed = true → decodeBytes (encodeBytes i ++ rest) = .ok (i, rest)

/-- The other direction: every recognised word is the encoding of what it decodes to, bit for bit.
That the y of SHL is kept is the model's choice (log 8). -/
def Obligations.EncodeOfDecodeGivesWordBack : Prop :=
  ∀ w : Word, decode w ≠ .unrecognized → encode (decode w) = w

/-! ## The step (spec/40_step_cycle.md) -/

/-- R101: when the bytes at pc decode to `i`, the step is `exec i` on the state with `dc = NONE`, followed by
the count of the timers (not after a hold) and the end of the request, and nothing else.
The order is the spec's own decision D10; the fields of the request are the model's (logs 3, 4). -/
def Obligations.StepRunsTheInstructionAtPc : Prop :=
  ∀ (s : State) (i : Instr), decodeBytes [s.readMem s.pc, s.readMem (s.pc + 1)] = .ok (i, []) →
    ∃ b t u, b.reply = .returned .unchanged ∧ ChangesOnly s b [.reply] ∧
      exec i b = .next t ∧ step s = .next u ∧
      u.dt.toNat = (if t.reply = .held then t.dt.toNat else t.dt.toNat - 1) ∧
      u.st.toNat = (if t.reply = .held then t.st.toNat else t.st.toNat - 1) ∧
      u.inputs = t.inputs.tail ∧ u.requests = t.requests + 1 ∧ ChangesOnly t u [.dt, .st, .inputs, .requests]

/-- R102: every instruction and every step, in every state, answers a next state.
That a hold too is a next state is the model's choice (log 3). -/
def Obligations.EveryStepAnswersANextState : Prop :=
  (∀ (i : Instr) (s : State), ∃ t, exec i s = .next t) ∧ ∀ s : State, ∃ t, step s = .next t

/-- R105, R108: a completed step counts a timer that its instruction does not write exactly once (a timer that it
writes: `TimerStepsCountAfterTheirEffect`), and a held step counts none.
The rule is marked as derived in the spec; that a hold counts none is its decision D16, and `held` is the
model's field (log 3). -/
def Obligations.TimersCountOncePerCompletedStep : Prop :=
  ∀ s t : State, step s = .next t →
    (t.reply = .held → t.dt = s.dt ∧ t.st = s.st) ∧
    (t.reply ≠ .held →
      ((∀ x, s.instrAtPc ≠ .ldDt x) → t.dt.toNat = s.dt.toNat - 1) ∧
      ((∀ x, s.instrAtPc ≠ .ldSt x) → t.st.toNat = s.st.toNat - 1))

/-- R104: the complete list of what happens to pc, for every instruction.
The reductions and the two policy cases are the spec's own decisions D4 and D9. -/
def Obligations.PcMovesOnlyAsListed : Prop :=
  ∀ (i : Instr) (s t : State), exec i s = .next t →
    match i with
    | .jp nnn => t.pc = nnn
    | .call nnn => if s.sp.val < 16 then t.pc = nnn else Advances s t 2
    | .jpV0 nnn => t.pc.toNat = (nnn.toNat + (s.readV 0).toNat) % 4096
    | .ret => (s.sp.val = 0 → t.pc = s.pc) ∧ ∀ k : Fin 16, s.sp.val = k.val + 1 → t.pc = s.stack[k]
    | .seImm x nn => Advances s t (if s.readV x = nn then 4 else 2)
    | .sneImm x nn => Advances s t (if s.readV x = nn then 2 else 4)
    | .seReg x y => Advances s t (if s.readV x = s.readV y then 4 else 2)
    | .sneReg x y => Advances s t (if s.readV x = s.readV y then 2 else 4)
    | .skp x => Advances s t (if s.keyPressed (s.readV x) then 4 else 2)
    | .sknp x => Advances s t (if s.keyPressed (s.readV x) then 2 else 4)
    | .ldVxK _ => if s.keyWait = none then t.pc = s.pc else Advances s t 2
    | _ => Advances s t 2

/-- R36, R107: `dc` is CLEAR after CLS, a toggle after DRW and NONE after every other completed step. -/
def Obligations.ReplyIsTheInstructionsOwn : Prop :=
  ∀ s t : State, step s = .next t → t.reply ≠ .held →
    (s.instrAtPc = .cls → t.reply = .returned .clear) ∧
    (∀ x y n, s.instrAtPc = .drw x y n → ∃ ps, t.reply = .returned (.toggle ps)) ∧
    (s.instrAtPc ≠ .cls → (∀ x y n, s.instrAtPc ≠ .drw x y n) → t.reply = .returned .unchanged)

/-- R28, R36, R125: a step reads neither the value returned before nor a stack cell at or above SP. Two states
that differ only there give, after one step, states that differ only in cells at or above SP.
That popped cells keep their contents is the spec's own decision D27. -/
def Obligations.StaleCellsAndRepliesAreUnobservable : Prop :=
  ∀ s s' t t' : State, s.mem.wf = true → s'.mem.wf = true →
    (∀ p : Part, p ≠ .reply → (∀ k, p = .stack k → k.val < s.sp.val) → p.same s s') →
    step s = .next t → step s' = .next t' →
    ∀ p : Part, (∀ k, p = .stack k → k.val < t.sp.val) → p.same t t'

/-- R34, R253: a step that does not consult the environment ignores its answers.
Where the answers stand is the model's choice (log 4). -/
def Obligations.OtherStepsIgnoreTheAnswers : Prop :=
  ∀ (s : State) (a b : StepInput) (rest : List StepInput), consultsEnvironment s.instrAtPc = false →
    step { s with inputs := a :: rest } = step { s with inputs := b :: rest }

/-! ## What only some instructions may do (whole-machine rules) -/

/-- R22, R24: a register changes only as a listed destination, or VF as the flag of the four flag writers;
and those leave 0 or 1 there on every execution.
The list is marked as derived in the spec. -/
def Obligations.RegistersChangeOnlyAsListed : Prop :=
  ∀ (i : Instr) (s t : State), exec i s = .next t →
    (∀ z, z ∉ writtenRegs i → t.readV z = s.readV z) ∧
    (writesFlag i = true → t.readV flagReg = 0 ∨ t.readV flagReg = 1)

/-- R26, R174: only LD I, ADD I and LD F change I.
That the transfers leave I is the spec's own decision D22. -/
def Obligations.OnlyThreeInstructionsWriteI : Prop :=
  ∀ (i : Instr) (s t : State), exec i s = .next t → (∀ nnn, i ≠ .ldI nnn) → (∀ x, i ≠ .addI x) → (∀ x, i ≠ .ldF x) →
    t.i = s.i

/-- R51: only LD B and LD [I], Vx change any byte of memory.
The list is marked as derived in the spec. -/
def Obligations.OnlyTwoInstructionsStore : Prop :=
  ∀ (i : Instr) (s t : State), exec i s = .next t → (∀ x, i ≠ .ldB x) → (∀ x, i ≠ .storeRegs x) →
    ∀ a, t.readMem a = s.readMem a

/-- R28, R136: only CALL and RET touch the call stack, and a cell below SP is changed by nothing at all.
That RET keeps the contents of the popped cell is the spec's own decision D27. -/
def Obligations.StackIsPrivateToCallAndRet : Prop :=
  ∀ (i : Instr) (s t : State), exec i s = .next t →
    ((∀ nnn, i ≠ .call nnn) → t.stack = s.stack) ∧
    ((∀ nnn, i ≠ .call nnn) → i ≠ .ret → t.sp = s.sp) ∧
    (∀ k : Fin 16, k.val < s.sp.val → t.stack[k] = s.stack[k])

/-! ## Runs -/

/-- R134: a CALL and, after any run that never goes below the call's own depth, the RET at that depth: pc is
the address after the CALL and SP is as before it.
The rule is marked as derived in the spec; it rests on its decision D8. -/
def Obligations.SubroutineReturnsAfterItsCall : Prop :=
  ∀ (n : Nat) (s t u : State) (nnn : Addr), s.sp.val < 16 → s.instrAtPc = .call nnn → step s = .next t →
    runSteps n t = .next u → (∀ m w, m ≤ n → runSteps m t = .next w → t.sp ≤ w.sp) →
    u.sp = t.sp → u.instrAtPc = .ret →
    ∃ z, step u = .next z ∧ z.pc.toNat = (s.pc.toNat + 2) % 4096 ∧ z.sp = s.sp

/-- R130, R262: RET on an empty stack with both timers at 0 is never left: any number of steps later every
piece of core state is the same.
That it repeats for ever is the spec's own decision D9. -/
def Obligations.EmptyStackReturnRepeatsForEver : Prop :=
  ∀ (n : Nat) (s : State), s.instrAtPc = .ret → s.sp.val = 0 → s.dt = 0 → s.st = 0 →
    ∃ t, runSteps n s = .next t ∧ ChangesOnly s t [.reply, .inputs, .requests]

/-- R131, R256: a jump to its own address is an idle loop in which only the timers change, counting down to 0. -/
def Obligations.SelfJumpOnlyCountsTimers : Prop :=
  ∀ (n : Nat) (s : State), s.instrAtPc = .jp s.pc →
    ∃ t, runSteps n s = .next t ∧ t.dt.toNat = s.dt.toNat - n ∧ t.st.toNat = s.st.toNat - n ∧
      ChangesOnly s t [.dt, .st, .reply, .inputs, .requests]

/-- R106 (c), (d), R237: over `n` completed steps none of which writes the timer, it counts down by `n` and
stops at 0.
The order of effect and decrement is the spec's own decision D10. -/
def Obligations.TimersMeasureSteps : Prop :=
  ∀ (n : Nat) (s t : State), runSteps n s = .next t →
    (∀ m w w', m < n → runSteps m s = .next w → step w = .next w' → w'.reply ≠ .held) →
    ((∀ m w x, m < n → runSteps m s = .next w → w.instrAtPc ≠ .ldDt x) → t.dt.toNat = s.dt.toNat - n) ∧
    ((∀ m w x, m < n → runSteps m s = .next w → w.instrAtPc ≠ .ldSt x) → t.st.toNat = s.st.toNat - n)

/-- R108, R184: LD Vx, K is held for as long as no key is reported, and when the next request reports one the
step happens once and the timers count once.
The wait is the spec's own decision D16; held requests and listed answers are the model's choice (logs 3, 4). -/
def Obligations.WaitForKeyEndsWithTheFirstKey : Prop :=
  ∀ (s : State) (x : Reg) (waits : List StepInput) (last : StepInput) (k : Byte) (rest : List StepInput),
    s.instrAtPc = .ldVxK x → s.inputs = waits ++ last :: rest → (∀ inp ∈ waits, inp.keyWait = none) →
    last.keyWait = some k →
    ∃ t, runSteps (waits.length + 1) s = .next t ∧ t.readV x = k ∧ t.pc.toNat = (s.pc.toNat + 2) % 4096 ∧
      t.dt.toNat = s.dt.toNat - 1 ∧ t.st.toNat = s.st.toNat - 1 ∧ t.inputs = rest ∧
      ChangesOnly s t [.pc, .v x, .dt, .st, .reply, .inputs, .requests]

/-! ## Reset and the driver (spec/70_reset_and_hazards.md) -/

/-- R37: what the state after reset holds. (LOWMEM zero and IMAGE empty are the model's choice, log 1.)
All zeros are the spec's own decision D19. -/
def Obligations.ResetStateHoldsTheResetValues : Prop :=
  State.reset.pc = 0x200 ∧ (∀ x, State.reset.readV x = 0) ∧ State.reset.i = 0 ∧ State.reset.sp = 0 ∧
    (∀ k : Fin 16, State.reset.stack[k] = 0) ∧ State.reset.dt = 0 ∧ State.reset.st = 0 ∧
    ∀ a, State.reset.readMem a = 0

/-- R250, R37: Reset with an image that fits starts the core and gives every register its reset value, LOWMEM
below 0x200, the image from 0x200 on, and zeros after it.
The zeros and LOWMEM are the spec's own decisions D19 and D20; the request is served as log 6 says. -/
def Obligations.ResetLoadsLowmemAndImage : Prop :=
  ∀ (s : State) (lowmem : Vector Byte Config.lowmemSize) (image : List Byte), image.length ≤ 3584 →
    ∃ t, serve (.reset lowmem image) s = .next t ∧ t.started = true ∧ t.pc = 0x200 ∧ (∀ x, t.readV x = 0) ∧
      t.i = 0 ∧ t.sp.val = 0 ∧ (∀ k : Fin 16, t.stack[k] = 0) ∧ t.dt = 0 ∧ t.st = 0 ∧
      (∀ a : Fin 512, t.readMem (BitVec.ofNat 12 a.val) = lowmem[a.val]'a.isLt) ∧
      (∀ j (hj : j < image.length), t.readMem (BitVec.ofNat 12 (0x200 + j)) = image[j]) ∧
      (∀ a, 0x200 + image.length ≤ a → a < 4096 → t.readMem (BitVec.ofNat 12 a) = 0)

/-- R251: a longer image is refused.
The refusal is the spec's own decision D20; its form is the model's (log 6). -/
def Obligations.OversizedImageIsRefused : Prop :=
  ∀ (s : State) (lowmem : Vector Byte Config.lowmemSize) (image : List Byte), 3584 < image.length →
    serve (.reset lowmem image) s = .refused .imageTooLong

/-- R252, R253: before the first Reset an Advance is refused; after it, it is served, and the answers it carries
are the ones its own step consults and are used up by it.
The query by the whole Vx and the wait are the spec's own decisions D15 and D16; how the answers reach the
step (log 4), that a hold is a next state with the reply `held` (log 3) and the form of the refusal (log 6)
are the model's choice. -/
def Obligations.AdvanceConsultsItsOwnAnswers : Prop :=
  ∀ (s : State) (inp : StepInput) (x : Reg) (nn : Byte),
    (s.started = false → serve (.advance inp) s = .refused .notYetReset) ∧
    (s.started = true →
      (∃ t, serve (.advance inp) s = .next t ∧ t.started = true) ∧
      (s.instrAtPc = .rnd x nn →
        ∃ t, serve (.advance inp) s = .next t ∧ t.readV x = inp.rand &&& nn ∧ t.inputs = s.inputs) ∧
      (s.instrAtPc = .skp x →
        ∃ t, serve (.advance inp) s = .next t ∧ Advances s t (if s.readV x ∈ inp.pressed then 4 else 2) ∧
          t.inputs = s.inputs) ∧
      (s.instrAtPc = .sknp x →
        ∃ t, serve (.advance inp) s = .next t ∧ Advances s t (if s.readV x ∈ inp.pressed then 2 else 4) ∧
          t.inputs = s.inputs) ∧
      (s.instrAtPc = .ldVxK x →
        ∃ t, serve (.advance inp) s = .next t ∧ t.inputs = s.inputs ∧
          (∀ k, inp.keyWait = some k → t.readV x = k ∧ Advances s t 2) ∧
          (inp.keyWait = none → t.reply = .held ∧ t.pc = s.pc)))

/-! ## The invariant -/

/-- The invariant holds after reset.
The reset memory is the model's choice (log 1). -/
def Obligations.ResetStateMeetsTheInvariant : Prop := State.reset.Inv

/-- AN INVARIANT THAT EVERY STEP KEEPS, from every state that has it: memory stays in its canonical form and
what the driver is given stays legal (R122).
The canonical form and the field `reply` are the model's (logs 1, 3). -/
def Obligations.EveryStepKeepsTheInvariant : Prop :=
  ∀ s t : State, s.Inv → step s = .next t → t.Inv

/-- Every request of the driver that is served keeps the invariant, a Reset with any image included.
How requests are served is the model's choice (log 6). -/
def Obligations.EveryRequestKeepsTheInvariant : Prop :=
  ∀ (r : Request) (s t : State), s.Inv → serve r s = .next t → t.Inv
end

