-- ==== Sys2Proof/Laws/Decode.lean ====
section
/-! SUPPORT. What a row of the opcode map accepts, in terms of the fields of the word; and the fields of an
encoded word. -/

namespace Sys2Proof

/-! ## Fields as numbers (R82) -/

theorem fieldF_toNat (w : Word) : (fieldF w).toNat = w.toNat / 4096 := by
  have := w.isLt
  simp only [fieldF, BitVec.extractLsb'_toNat, Nat.shiftRight_eq_div_pow]
  omega

theorem fieldX_val (w : Word) : (fieldX w).val = w.toNat / 256 % 16 := by
  show (w.extractLsb' 8 4).toNat = _
  simp only [BitVec.extractLsb'_toNat, Nat.shiftRight_eq_div_pow]

theorem fieldY_val (w : Word) : (fieldY w).val = w.toNat / 16 % 16 := by
  show (w.extractLsb' 4 4).toNat = _
  simp only [BitVec.extractLsb'_toNat, Nat.shiftRight_eq_div_pow]

theorem fieldN_val (w : Word) : (fieldN w).val = w.toNat % 16 := by
  show (w.extractLsb' 0 4).toNat = _
  simp only [BitVec.extractLsb'_toNat, Nat.shiftRight_zero]

theorem fieldNN_toNat (w : Word) : (fieldNN w).toNat = w.toNat % 256 := by
  simp only [fieldNN, BitVec.extractLsb'_toNat, Nat.shiftRight_zero]

theorem fieldNNN_toNat (w : Word) : (fieldNNN w).toNat = w.toNat % 4096 := by
  simp only [fieldNNN, BitVec.extractLsb'_toNat, Nat.shiftRight_zero]

/-! ## Encoded words as numbers (R81) -/

theorem append_toNat {m n : Nat} (a : BitVec m) (b : BitVec n) : (a ++ b).toNat = a.toNat * 2 ^ n + b.toNat := by
  rw [BitVec.toNat_append, ← Nat.shiftLeft_add_eq_or_of_lt b.isLt, Nat.shiftLeft_eq]

theorem formatA_toNat (f : BitVec 4) (nnn : Addr) : (formatA f nnn).toNat = f.toNat * 4096 + nnn.toNat :=
  append_toNat f nnn

theorem formatRI_toNat (f : BitVec 4) (x : Reg) (nn : Byte) :
    (formatRI f x nn).toNat = f.toNat * 4096 + x.val * 256 + nn.toNat := by
  have h : (formatRI f x nn).toNat = (f ++ nibble x).toNat * 2 ^ 8 + nn.toNat := append_toNat _ nn
  rw [h, append_toNat f (nibble x)]
  show (f.toNat * 2 ^ 4 + x.val) * 2 ^ 8 + nn.toNat = _
  omega

theorem formatRRN_toNat (f : BitVec 4) (x y : Reg) (n : BitVec 4) :
    (formatRRN f x y n).toNat = f.toNat * 4096 + x.val * 256 + y.val * 16 + n.toNat := by
  have h : (formatRRN f x y n).toNat = (f ++ nibble x ++ nibble y).toNat * 2 ^ 4 + n.toNat := append_toNat _ n
  rw [h, append_toNat _ (nibble y), append_toNat f (nibble x)]
  show ((f.toNat * 2 ^ 4 + x.val) * 2 ^ 4 + y.val) * 2 ^ 4 + n.toNat = _
  omega

/-! ## What a row accepts (R85), by the four masks of the map -/

/-- A mask of ones above and ones below keeps the two fields it covers. -/
theorem and_mask_high_low (w : Word) {z l : Nat} (h : 4 + z + l = 16) :
    w.setWidth (4 + z + l) &&& (BitVec.allOnes 4 ++ (0#z) ++ BitVec.allOnes l) =
      fieldF w ++ (0#z) ++ w.extractLsb' 0 l := by
  apply BitVec.eq_of_getLsbD_eq
  intro i hi
  rw [fieldF, BitVec.getLsbD_and, BitVec.getLsbD_setWidth]
  simp only [BitVec.getLsbD_append, BitVec.getLsbD_allOnes, BitVec.getLsbD_extractLsb']
  by_cases h1 : i < l
  · simp [h1, hi]
  · by_cases h2 : i - l < z
    · simp [h1, h2]
    · have e : 12 + (i - l - z) = i := by omega
      have l4 : i - l - z < 4 := by omega
      simp [h1, h2, e, l4, hi]

/-- The three masks of the map that are not the whole word. -/
theorem and_mask (w : Word) :
    w &&& 0xF000 = fieldF w ++ (0#12) ++ w.extractLsb' 0 0 ∧
    w &&& 0xF00F = fieldF w ++ (0#8) ++ w.extractLsb' 0 4 ∧
    w &&& 0xF0FF = fieldF w ++ (0#4) ++ fieldNN w := by
  have e : w.setWidth 16 = w := by simp
  refine ⟨?_, ?_, ?_⟩
  · rw [← and_mask_high_low w (z := 12) (l := 0) rfl, e]; rfl
  · rw [← and_mask_high_low w (z := 8) (l := 4) rfl, e]; rfl
  · rw [fieldNN, ← and_mask_high_low w (z := 4) (l := 8) rfl, e]; rfl

theorem and_mask_toNat (w : Word) :
    (w &&& 0xF000).toNat = w.toNat / 4096 * 4096 ∧
    (w &&& 0xF00F).toNat = w.toNat / 4096 * 4096 + w.toNat % 16 ∧
    (w &&& 0xF0FF).toNat = w.toNat / 4096 * 4096 + w.toNat % 256 := by
  obtain ⟨h1, h2, h3⟩ := and_mask w
  have hF := fieldF_toNat w
  have hN : (w.extractLsb' 0 4).toNat = w.toNat % 16 := fieldN_val w
  have hNN := fieldNN_toNat w
  rw [h1, h2, h3]
  refine ⟨?_, ?_, ?_⟩
  · have h : (fieldF w ++ (0#12) ++ w.extractLsb' 0 0).toNat =
        (fieldF w ++ (0#12)).toNat * 2 ^ 0 + (w.extractLsb' 0 0).toNat := append_toNat _ _
    rw [h, append_toNat, hF]
    simp
  · have h : (fieldF w ++ (0#8) ++ w.extractLsb' 0 4).toNat =
        (fieldF w ++ (0#8)).toNat * 2 ^ 4 + (w.extractLsb' 0 4).toNat := append_toNat _ _
    rw [h, append_toNat, hF, hN]
    simp; omega
  · have h : (fieldF w ++ (0#4) ++ fieldNN w).toNat =
        (fieldF w ++ (0#4)).toNat * 2 ^ 8 + (fieldNN w).toNat := append_toNat _ _
    rw [h, append_toNat, hF, hNN]
    simp; omega

/-- Families without a second level (R84). -/
theorem accepts_family (p : Word) (b : Word → Instr) (w : Word) :
    (OpRow.mk 0xF000 p b).accepts w = decide (w.toNat / 4096 * 4096 = p.toNat) := by
  rw [← (and_mask_toNat w).1, OpRow.accepts, Bool.beq_eq_decide_eq]
  simp only [BitVec.toNat_inj]

/-- Families dispatched on the bottom 4 bits (R84). -/
theorem accepts_family_n (p : Word) (b : Word → Instr) (w : Word) :
    (OpRow.mk 0xF00F p b).accepts w = decide (w.toNat / 4096 * 4096 + w.toNat % 16 = p.toNat) := by
  rw [← (and_mask_toNat w).2.1, OpRow.accepts, Bool.beq_eq_decide_eq]
  simp only [BitVec.toNat_inj]

/-- Families dispatched on the bottom 8 bits (R84). -/
theorem accepts_family_nn (p : Word) (b : Word → Instr) (w : Word) :
    (OpRow.mk 0xF0FF p b).accepts w = decide (w.toNat / 4096 * 4096 + w.toNat % 256 = p.toNat) := by
  rw [← (and_mask_toNat w).2.2, OpRow.accepts, Bool.beq_eq_decide_eq]
  simp only [BitVec.toNat_inj]

/-- Family 0, matched on the whole word (R84). -/
theorem accepts_word (p : Word) (b : Word → Instr) (w : Word) :
    (OpRow.mk 0xFFFF p b).accepts w = decide (w.toNat = p.toNat) := by
  have : w &&& 0xFFFF = w := by
    have : (0xFFFF : Word) = BitVec.allOnes 16 := by decide
    rw [this, BitVec.and_allOnes]
  rw [OpRow.accepts, this, Bool.beq_eq_decide_eq]
  simp only [BitVec.toNat_inj]

end Sys2Proof
end

