-- ==== Sys2Proof/Laws/State.lean ====
section
/-! SUPPORT. One lemma per field per update of State, true by rfl, and the same for the named reads of an
update that cannot change what they read; so that no proof unfolds a record update. -/

namespace Sys2Proof.Machine

variable (s : State)

/-! ## writeV -/

@[simp] theorem writeV_v (x : Reg) (b : Byte) : (s.writeV x b).v = s.v.set x b := rfl
@[simp] theorem writeV_i (x : Reg) (b : Byte) : (s.writeV x b).i = s.i := rfl
@[simp] theorem writeV_pc (x : Reg) (b : Byte) : (s.writeV x b).pc = s.pc := rfl
@[simp] theorem writeV_sp (x : Reg) (b : Byte) : (s.writeV x b).sp = s.sp := rfl
@[simp] theorem writeV_stack (x : Reg) (b : Byte) : (s.writeV x b).stack = s.stack := rfl
@[simp] theorem writeV_dt (x : Reg) (b : Byte) : (s.writeV x b).dt = s.dt := rfl
@[simp] theorem writeV_st (x : Reg) (b : Byte) : (s.writeV x b).st = s.st := rfl
@[simp] theorem writeV_mem (x : Reg) (b : Byte) : (s.writeV x b).mem = s.mem := rfl
@[simp] theorem writeV_reply (x : Reg) (b : Byte) : (s.writeV x b).reply = s.reply := rfl
@[simp] theorem writeV_inputs (x : Reg) (b : Byte) : (s.writeV x b).inputs = s.inputs := rfl
@[simp] theorem writeV_requests (x : Reg) (b : Byte) : (s.writeV x b).requests = s.requests := rfl
@[simp] theorem writeV_params (x : Reg) (b : Byte) : (s.writeV x b).params = s.params := rfl
@[simp] theorem writeV_started (x : Reg) (b : Byte) : (s.writeV x b).started = s.started := rfl
@[simp] theorem readMem_writeV (x : Reg) (b : Byte) (c : Addr) : (s.writeV x b).readMem c = s.readMem c := rfl
@[simp] theorem ea_writeV (x : Reg) (b : Byte) (k : Nat) : (s.writeV x b).ea k = s.ea k := rfl
@[simp] theorem fetch16_writeV (x : Reg) (b : Byte) (c : Addr) : (s.writeV x b).fetch16 c = s.fetch16 c := rfl
@[simp] theorem input_writeV (x : Reg) (b : Byte) : (s.writeV x b).input = s.input := rfl

/-! ## writeFlag -/

@[simp] theorem writeFlag_v (f : Bool) : (s.writeFlag f).v = s.v.set flagReg (if f then 1 else 0) := rfl
@[simp] theorem writeFlag_i (f : Bool) : (s.writeFlag f).i = s.i := rfl
@[simp] theorem writeFlag_pc (f : Bool) : (s.writeFlag f).pc = s.pc := rfl
@[simp] theorem writeFlag_sp (f : Bool) : (s.writeFlag f).sp = s.sp := rfl
@[simp] theorem writeFlag_stack (f : Bool) : (s.writeFlag f).stack = s.stack := rfl
@[simp] theorem writeFlag_dt (f : Bool) : (s.writeFlag f).dt = s.dt := rfl
@[simp] theorem writeFlag_st (f : Bool) : (s.writeFlag f).st = s.st := rfl
@[simp] theorem writeFlag_mem (f : Bool) : (s.writeFlag f).mem = s.mem := rfl
@[simp] theorem writeFlag_reply (f : Bool) : (s.writeFlag f).reply = s.reply := rfl
@[simp] theorem writeFlag_inputs (f : Bool) : (s.writeFlag f).inputs = s.inputs := rfl
@[simp] theorem writeFlag_requests (f : Bool) : (s.writeFlag f).requests = s.requests := rfl
@[simp] theorem writeFlag_params (f : Bool) : (s.writeFlag f).params = s.params := rfl
@[simp] theorem writeFlag_started (f : Bool) : (s.writeFlag f).started = s.started := rfl
@[simp] theorem readMem_writeFlag (f : Bool) (c : Addr) : (s.writeFlag f).readMem c = s.readMem c := rfl
@[simp] theorem ea_writeFlag (f : Bool) (k : Nat) : (s.writeFlag f).ea k = s.ea k := rfl
@[simp] theorem fetch16_writeFlag (f : Bool) (c : Addr) : (s.writeFlag f).fetch16 c = s.fetch16 c := rfl
@[simp] theorem input_writeFlag (f : Bool) : (s.writeFlag f).input = s.input := rfl

/-! ## setI -/

@[simp] theorem setI_v (a : Addr) : (s.setI a).v = s.v := rfl
@[simp] theorem setI_i (a : Addr) : (s.setI a).i = a := rfl
@[simp] theorem setI_pc (a : Addr) : (s.setI a).pc = s.pc := rfl
@[simp] theorem setI_sp (a : Addr) : (s.setI a).sp = s.sp := rfl
@[simp] theorem setI_stack (a : Addr) : (s.setI a).stack = s.stack := rfl
@[simp] theorem setI_dt (a : Addr) : (s.setI a).dt = s.dt := rfl
@[simp] theorem setI_st (a : Addr) : (s.setI a).st = s.st := rfl
@[simp] theorem setI_mem (a : Addr) : (s.setI a).mem = s.mem := rfl
@[simp] theorem setI_reply (a : Addr) : (s.setI a).reply = s.reply := rfl
@[simp] theorem setI_inputs (a : Addr) : (s.setI a).inputs = s.inputs := rfl
@[simp] theorem setI_requests (a : Addr) : (s.setI a).requests = s.requests := rfl
@[simp] theorem setI_params (a : Addr) : (s.setI a).params = s.params := rfl
@[simp] theorem setI_started (a : Addr) : (s.setI a).started = s.started := rfl
@[simp] theorem readV_setI (a : Addr) (z : Reg) : (s.setI a).readV z = s.readV z := rfl
@[simp] theorem readMem_setI (a : Addr) (c : Addr) : (s.setI a).readMem c = s.readMem c := rfl
@[simp] theorem fetch16_setI (a : Addr) (c : Addr) : (s.setI a).fetch16 c = s.fetch16 c := rfl
@[simp] theorem input_setI (a : Addr) : (s.setI a).input = s.input := rfl

/-! ## setPc -/

@[simp] theorem setPc_v (a : Addr) : (s.setPc a).v = s.v := rfl
@[simp] theorem setPc_i (a : Addr) : (s.setPc a).i = s.i := rfl
@[simp] theorem setPc_pc (a : Addr) : (s.setPc a).pc = a := rfl
@[simp] theorem setPc_sp (a : Addr) : (s.setPc a).sp = s.sp := rfl
@[simp] theorem setPc_stack (a : Addr) : (s.setPc a).stack = s.stack := rfl
@[simp] theorem setPc_dt (a : Addr) : (s.setPc a).dt = s.dt := rfl
@[simp] theorem setPc_st (a : Addr) : (s.setPc a).st = s.st := rfl
@[simp] theorem setPc_mem (a : Addr) : (s.setPc a).mem = s.mem := rfl
@[simp] theorem setPc_reply (a : Addr) : (s.setPc a).reply = s.reply := rfl
@[simp] theorem setPc_inputs (a : Addr) : (s.setPc a).inputs = s.inputs := rfl
@[simp] theorem setPc_requests (a : Addr) : (s.setPc a).requests = s.requests := rfl
@[simp] theorem setPc_params (a : Addr) : (s.setPc a).params = s.params := rfl
@[simp] theorem setPc_started (a : Addr) : (s.setPc a).started = s.started := rfl
@[simp] theorem readV_setPc (a : Addr) (z : Reg) : (s.setPc a).readV z = s.readV z := rfl
@[simp] theorem readMem_setPc (a : Addr) (c : Addr) : (s.setPc a).readMem c = s.readMem c := rfl
@[simp] theorem ea_setPc (a : Addr) (k : Nat) : (s.setPc a).ea k = s.ea k := rfl
@[simp] theorem fetch16_setPc (a : Addr) (c : Addr) : (s.setPc a).fetch16 c = s.fetch16 c := rfl
@[simp] theorem input_setPc (a : Addr) : (s.setPc a).input = s.input := rfl

/-! ## pcNext -/

@[simp] theorem pcNext_v : (s.pcNext).v = s.v := rfl
@[simp] theorem pcNext_i : (s.pcNext).i = s.i := rfl
@[simp] theorem pcNext_pc : (s.pcNext).pc = s.pc + 2 := rfl
@[simp] theorem pcNext_sp : (s.pcNext).sp = s.sp := rfl
@[simp] theorem pcNext_stack : (s.pcNext).stack = s.stack := rfl
@[simp] theorem pcNext_dt : (s.pcNext).dt = s.dt := rfl
@[simp] theorem pcNext_st : (s.pcNext).st = s.st := rfl
@[simp] theorem pcNext_mem : (s.pcNext).mem = s.mem := rfl
@[simp] theorem pcNext_reply : (s.pcNext).reply = s.reply := rfl
@[simp] theorem pcNext_inputs : (s.pcNext).inputs = s.inputs := rfl
@[simp] theorem pcNext_requests : (s.pcNext).requests = s.requests := rfl
@[simp] theorem pcNext_params : (s.pcNext).params = s.params := rfl
@[simp] theorem pcNext_started : (s.pcNext).started = s.started := rfl
@[simp] theorem readV_pcNext (z : Reg) : (s.pcNext).readV z = s.readV z := rfl
@[simp] theorem readMem_pcNext (c : Addr) : (s.pcNext).readMem c = s.readMem c := rfl
@[simp] theorem ea_pcNext (k : Nat) : (s.pcNext).ea k = s.ea k := rfl
@[simp] theorem fetch16_pcNext (c : Addr) : (s.pcNext).fetch16 c = s.fetch16 c := rfl
@[simp] theorem input_pcNext : (s.pcNext).input = s.input := rfl

/-! ## pcSkip -/

@[simp] theorem pcSkip_v : (s.pcSkip).v = s.v := rfl
@[simp] theorem pcSkip_i : (s.pcSkip).i = s.i := rfl
@[simp] theorem pcSkip_pc : (s.pcSkip).pc = s.pc + 4 := rfl
@[simp] theorem pcSkip_sp : (s.pcSkip).sp = s.sp := rfl
@[simp] theorem pcSkip_stack : (s.pcSkip).stack = s.stack := rfl
@[simp] theorem pcSkip_dt : (s.pcSkip).dt = s.dt := rfl
@[simp] theorem pcSkip_st : (s.pcSkip).st = s.st := rfl
@[simp] theorem pcSkip_mem : (s.pcSkip).mem = s.mem := rfl
@[simp] theorem pcSkip_reply : (s.pcSkip).reply = s.reply := rfl
@[simp] theorem pcSkip_inputs : (s.pcSkip).inputs = s.inputs := rfl
@[simp] theorem pcSkip_requests : (s.pcSkip).requests = s.requests := rfl
@[simp] theorem pcSkip_params : (s.pcSkip).params = s.params := rfl
@[simp] theorem pcSkip_started : (s.pcSkip).started = s.started := rfl
@[simp] theorem readV_pcSkip (z : Reg) : (s.pcSkip).readV z = s.readV z := rfl
@[simp] theorem readMem_pcSkip (c : Addr) : (s.pcSkip).readMem c = s.readMem c := rfl
@[simp] theorem ea_pcSkip (k : Nat) : (s.pcSkip).ea k = s.ea k := rfl
@[simp] theorem fetch16_pcSkip (c : Addr) : (s.pcSkip).fetch16 c = s.fetch16 c := rfl
@[simp] theorem input_pcSkip : (s.pcSkip).input = s.input := rfl

/-! ## setDt -/

@[simp] theorem setDt_v (b : Byte) : (s.setDt b).v = s.v := rfl
@[simp] theorem setDt_i (b : Byte) : (s.setDt b).i = s.i := rfl
@[simp] theorem setDt_pc (b : Byte) : (s.setDt b).pc = s.pc := rfl
@[simp] theorem setDt_sp (b : Byte) : (s.setDt b).sp = s.sp := rfl
@[simp] theorem setDt_stack (b : Byte) : (s.setDt b).stack = s.stack := rfl
@[simp] theorem setDt_dt (b : Byte) : (s.setDt b).dt = b := rfl
@[simp] theorem setDt_st (b : Byte) : (s.setDt b).st = s.st := rfl
@[simp] theorem setDt_mem (b : Byte) : (s.setDt b).mem = s.mem := rfl
@[simp] theorem setDt_reply (b : Byte) : (s.setDt b).reply = s.reply := rfl
@[simp] theorem setDt_inputs (b : Byte) : (s.setDt b).inputs = s.inputs := rfl
@[simp] theorem setDt_requests (b : Byte) : (s.setDt b).requests = s.requests := rfl
@[simp] theorem setDt_params (b : Byte) : (s.setDt b).params = s.params := rfl
@[simp] theorem setDt_started (b : Byte) : (s.setDt b).started = s.started := rfl
@[simp] theorem readV_setDt (b : Byte) (z : Reg) : (s.setDt b).readV z = s.readV z := rfl
@[simp] theorem readMem_setDt (b : Byte) (c : Addr) : (s.setDt b).readMem c = s.readMem c := rfl
@[simp] theorem ea_setDt (b : Byte) (k : Nat) : (s.setDt b).ea k = s.ea k := rfl
@[simp] theorem fetch16_setDt (b : Byte) (c : Addr) : (s.setDt b).fetch16 c = s.fetch16 c := rfl
@[simp] theorem input_setDt (b : Byte) : (s.setDt b).input = s.input := rfl

/-! ## setSt -/

@[simp] theorem setSt_v (b : Byte) : (s.setSt b).v = s.v := rfl
@[simp] theorem setSt_i (b : Byte) : (s.setSt b).i = s.i := rfl
@[simp] theorem setSt_pc (b : Byte) : (s.setSt b).pc = s.pc := rfl
@[simp] theorem setSt_sp (b : Byte) : (s.setSt b).sp = s.sp := rfl
@[simp] theorem setSt_stack (b : Byte) : (s.setSt b).stack = s.stack := rfl
@[simp] theorem setSt_dt (b : Byte) : (s.setSt b).dt = s.dt := rfl
@[simp] theorem setSt_st (b : Byte) : (s.setSt b).st = b := rfl
@[simp] theorem setSt_mem (b : Byte) : (s.setSt b).mem = s.mem := rfl
@[simp] theorem setSt_reply (b : Byte) : (s.setSt b).reply = s.reply := rfl
@[simp] theorem setSt_inputs (b : Byte) : (s.setSt b).inputs = s.inputs := rfl
@[simp] theorem setSt_requests (b : Byte) : (s.setSt b).requests = s.requests := rfl
@[simp] theorem setSt_params (b : Byte) : (s.setSt b).params = s.params := rfl
@[simp] theorem setSt_started (b : Byte) : (s.setSt b).started = s.started := rfl
@[simp] theorem readV_setSt (b : Byte) (z : Reg) : (s.setSt b).readV z = s.readV z := rfl
@[simp] theorem readMem_setSt (b : Byte) (c : Addr) : (s.setSt b).readMem c = s.readMem c := rfl
@[simp] theorem ea_setSt (b : Byte) (k : Nat) : (s.setSt b).ea k = s.ea k := rfl
@[simp] theorem fetch16_setSt (b : Byte) (c : Addr) : (s.setSt b).fetch16 c = s.fetch16 c := rfl
@[simp] theorem input_setSt (b : Byte) : (s.setSt b).input = s.input := rfl

/-! ## tickTimers -/

@[simp] theorem tickTimers_v : (s.tickTimers).v = s.v := rfl
@[simp] theorem tickTimers_i : (s.tickTimers).i = s.i := rfl
@[simp] theorem tickTimers_pc : (s.tickTimers).pc = s.pc := rfl
@[simp] theorem tickTimers_sp : (s.tickTimers).sp = s.sp := rfl
@[simp] theorem tickTimers_stack : (s.tickTimers).stack = s.stack := rfl
@[simp] theorem tickTimers_dt : (s.tickTimers).dt = countDown s.dt := rfl
@[simp] theorem tickTimers_st : (s.tickTimers).st = countDown s.st := rfl
@[simp] theorem tickTimers_mem : (s.tickTimers).mem = s.mem := rfl
@[simp] theorem tickTimers_reply : (s.tickTimers).reply = s.reply := rfl
@[simp] theorem tickTimers_inputs : (s.tickTimers).inputs = s.inputs := rfl
@[simp] theorem tickTimers_requests : (s.tickTimers).requests = s.requests := rfl
@[simp] theorem tickTimers_params : (s.tickTimers).params = s.params := rfl
@[simp] theorem tickTimers_started : (s.tickTimers).started = s.started := rfl
@[simp] theorem readV_tickTimers (z : Reg) : (s.tickTimers).readV z = s.readV z := rfl
@[simp] theorem readMem_tickTimers (c : Addr) : (s.tickTimers).readMem c = s.readMem c := rfl
@[simp] theorem ea_tickTimers (k : Nat) : (s.tickTimers).ea k = s.ea k := rfl
@[simp] theorem fetch16_tickTimers (c : Addr) : (s.tickTimers).fetch16 c = s.fetch16 c := rfl
@[simp] theorem input_tickTimers : (s.tickTimers).input = s.input := rfl

/-! ## setReply -/

@[simp] theorem setReply_v (r : Reply) : (s.setReply r).v = s.v := rfl
@[simp] theorem setReply_i (r : Reply) : (s.setReply r).i = s.i := rfl
@[simp] theorem setReply_pc (r : Reply) : (s.setReply r).pc = s.pc := rfl
@[simp] theorem setReply_sp (r : Reply) : (s.setReply r).sp = s.sp := rfl
@[simp] theorem setReply_stack (r : Reply) : (s.setReply r).stack = s.stack := rfl
@[simp] theorem setReply_dt (r : Reply) : (s.setReply r).dt = s.dt := rfl
@[simp] theorem setReply_st (r : Reply) : (s.setReply r).st = s.st := rfl
@[simp] theorem setReply_mem (r : Reply) : (s.setReply r).mem = s.mem := rfl
@[simp] theorem setReply_reply (r : Reply) : (s.setReply r).reply = r := rfl
@[simp] theorem setReply_inputs (r : Reply) : (s.setReply r).inputs = s.inputs := rfl
@[simp] theorem setReply_requests (r : Reply) : (s.setReply r).requests = s.requests := rfl
@[simp] theorem setReply_params (r : Reply) : (s.setReply r).params = s.params := rfl
@[simp] theorem setReply_started (r : Reply) : (s.setReply r).started = s.started := rfl
@[simp] theorem readV_setReply (r : Reply) (z : Reg) : (s.setReply r).readV z = s.readV z := rfl
@[simp] theorem readMem_setReply (r : Reply) (c : Addr) : (s.setReply r).readMem c = s.readMem c := rfl
@[simp] theorem ea_setReply (r : Reply) (k : Nat) : (s.setReply r).ea k = s.ea k := rfl
@[simp] theorem fetch16_setReply (r : Reply) (c : Addr) : (s.setReply r).fetch16 c = s.fetch16 c := rfl
@[simp] theorem input_setReply (r : Reply) : (s.setReply r).input = s.input := rfl

/-! ## setDc -/

@[simp] theorem setDc_v (d : DisplayChange) : (s.setDc d).v = s.v := rfl
@[simp] theorem setDc_i (d : DisplayChange) : (s.setDc d).i = s.i := rfl
@[simp] theorem setDc_pc (d : DisplayChange) : (s.setDc d).pc = s.pc := rfl
@[simp] theorem setDc_sp (d : DisplayChange) : (s.setDc d).sp = s.sp := rfl
@[simp] theorem setDc_stack (d : DisplayChange) : (s.setDc d).stack = s.stack := rfl
@[simp] theorem setDc_dt (d : DisplayChange) : (s.setDc d).dt = s.dt := rfl
@[simp] theorem setDc_st (d : DisplayChange) : (s.setDc d).st = s.st := rfl
@[simp] theorem setDc_mem (d : DisplayChange) : (s.setDc d).mem = s.mem := rfl
@[simp] theorem setDc_reply (d : DisplayChange) : (s.setDc d).reply = .returned d := rfl
@[simp] theorem setDc_inputs (d : DisplayChange) : (s.setDc d).inputs = s.inputs := rfl
@[simp] theorem setDc_requests (d : DisplayChange) : (s.setDc d).requests = s.requests := rfl
@[simp] theorem setDc_params (d : DisplayChange) : (s.setDc d).params = s.params := rfl
@[simp] theorem setDc_started (d : DisplayChange) : (s.setDc d).started = s.started := rfl
@[simp] theorem readV_setDc (d : DisplayChange) (z : Reg) : (s.setDc d).readV z = s.readV z := rfl
@[simp] theorem readMem_setDc (d : DisplayChange) (c : Addr) : (s.setDc d).readMem c = s.readMem c := rfl
@[simp] theorem ea_setDc (d : DisplayChange) (k : Nat) : (s.setDc d).ea k = s.ea k := rfl
@[simp] theorem fetch16_setDc (d : DisplayChange) (c : Addr) : (s.setDc d).fetch16 c = s.fetch16 c := rfl
@[simp] theorem input_setDc (d : DisplayChange) : (s.setDc d).input = s.input := rfl

/-! ## hold -/

@[simp] theorem hold_v : (s.hold).v = s.v := rfl
@[simp] theorem hold_i : (s.hold).i = s.i := rfl
@[simp] theorem hold_pc : (s.hold).pc = s.pc := rfl
@[simp] theorem hold_sp : (s.hold).sp = s.sp := rfl
@[simp] theorem hold_stack : (s.hold).stack = s.stack := rfl
@[simp] theorem hold_dt : (s.hold).dt = s.dt := rfl
@[simp] theorem hold_st : (s.hold).st = s.st := rfl
@[simp] theorem hold_mem : (s.hold).mem = s.mem := rfl
@[simp] theorem hold_reply : (s.hold).reply = .held := rfl
@[simp] theorem hold_inputs : (s.hold).inputs = s.inputs := rfl
@[simp] theorem hold_requests : (s.hold).requests = s.requests := rfl
@[simp] theorem hold_params : (s.hold).params = s.params := rfl
@[simp] theorem hold_started : (s.hold).started = s.started := rfl
@[simp] theorem readV_hold (z : Reg) : (s.hold).readV z = s.readV z := rfl
@[simp] theorem readMem_hold (c : Addr) : (s.hold).readMem c = s.readMem c := rfl
@[simp] theorem ea_hold (k : Nat) : (s.hold).ea k = s.ea k := rfl
@[simp] theorem fetch16_hold (c : Addr) : (s.hold).fetch16 c = s.fetch16 c := rfl
@[simp] theorem input_hold : (s.hold).input = s.input := rfl

/-! ## beginStep -/

@[simp] theorem beginStep_v : (s.beginStep).v = s.v := rfl
@[simp] theorem beginStep_i : (s.beginStep).i = s.i := rfl
@[simp] theorem beginStep_pc : (s.beginStep).pc = s.pc := rfl
@[simp] theorem beginStep_sp : (s.beginStep).sp = s.sp := rfl
@[simp] theorem beginStep_stack : (s.beginStep).stack = s.stack := rfl
@[simp] theorem beginStep_dt : (s.beginStep).dt = s.dt := rfl
@[simp] theorem beginStep_st : (s.beginStep).st = s.st := rfl
@[simp] theorem beginStep_mem : (s.beginStep).mem = s.mem := rfl
@[simp] theorem beginStep_reply : (s.beginStep).reply = .returned .unchanged := rfl
@[simp] theorem beginStep_inputs : (s.beginStep).inputs = s.inputs := rfl
@[simp] theorem beginStep_requests : (s.beginStep).requests = s.requests := rfl
@[simp] theorem beginStep_params : (s.beginStep).params = s.params := rfl
@[simp] theorem beginStep_started : (s.beginStep).started = s.started := rfl
@[simp] theorem readV_beginStep (z : Reg) : (s.beginStep).readV z = s.readV z := rfl
@[simp] theorem readMem_beginStep (c : Addr) : (s.beginStep).readMem c = s.readMem c := rfl
@[simp] theorem ea_beginStep (k : Nat) : (s.beginStep).ea k = s.ea k := rfl
@[simp] theorem fetch16_beginStep (c : Addr) : (s.beginStep).fetch16 c = s.fetch16 c := rfl
@[simp] theorem input_beginStep : (s.beginStep).input = s.input := rfl

/-! ## endRequest -/

@[simp] theorem endRequest_v : (s.endRequest).v = s.v := rfl
@[simp] theorem endRequest_i : (s.endRequest).i = s.i := rfl
@[simp] theorem endRequest_pc : (s.endRequest).pc = s.pc := rfl
@[simp] theorem endRequest_sp : (s.endRequest).sp = s.sp := rfl
@[simp] theorem endRequest_stack : (s.endRequest).stack = s.stack := rfl
@[simp] theorem endRequest_dt : (s.endRequest).dt = s.dt := rfl
@[simp] theorem endRequest_st : (s.endRequest).st = s.st := rfl
@[simp] theorem endRequest_mem : (s.endRequest).mem = s.mem := rfl
@[simp] theorem endRequest_reply : (s.endRequest).reply = s.reply := rfl
@[simp] theorem endRequest_inputs : (s.endRequest).inputs = s.inputs.tail := rfl
@[simp] theorem endRequest_requests : (s.endRequest).requests = s.requests + 1 := rfl
@[simp] theorem endRequest_params : (s.endRequest).params = s.params := rfl
@[simp] theorem endRequest_started : (s.endRequest).started = s.started := rfl
@[simp] theorem readV_endRequest (z : Reg) : (s.endRequest).readV z = s.readV z := rfl
@[simp] theorem readMem_endRequest (c : Addr) : (s.endRequest).readMem c = s.readMem c := rfl
@[simp] theorem ea_endRequest (k : Nat) : (s.endRequest).ea k = s.ea k := rfl
@[simp] theorem fetch16_endRequest (c : Addr) : (s.endRequest).fetch16 c = s.fetch16 c := rfl

/-! ## writeMem -/

@[simp] theorem writeMem_v (a : Addr) (b : Byte) : (s.writeMem a b).v = s.v := rfl
@[simp] theorem writeMem_i (a : Addr) (b : Byte) : (s.writeMem a b).i = s.i := rfl
@[simp] theorem writeMem_pc (a : Addr) (b : Byte) : (s.writeMem a b).pc = s.pc := rfl
@[simp] theorem writeMem_sp (a : Addr) (b : Byte) : (s.writeMem a b).sp = s.sp := rfl
@[simp] theorem writeMem_stack (a : Addr) (b : Byte) : (s.writeMem a b).stack = s.stack := rfl
@[simp] theorem writeMem_dt (a : Addr) (b : Byte) : (s.writeMem a b).dt = s.dt := rfl
@[simp] theorem writeMem_st (a : Addr) (b : Byte) : (s.writeMem a b).st = s.st := rfl
@[simp] theorem writeMem_mem (a : Addr) (b : Byte) : (s.writeMem a b).mem = s.mem.write a.toNat b := rfl
@[simp] theorem writeMem_reply (a : Addr) (b : Byte) : (s.writeMem a b).reply = s.reply := rfl
@[simp] theorem writeMem_inputs (a : Addr) (b : Byte) : (s.writeMem a b).inputs = s.inputs := rfl
@[simp] theorem writeMem_requests (a : Addr) (b : Byte) : (s.writeMem a b).requests = s.requests := rfl
@[simp] theorem writeMem_params (a : Addr) (b : Byte) : (s.writeMem a b).params = s.params := rfl
@[simp] theorem writeMem_started (a : Addr) (b : Byte) : (s.writeMem a b).started = s.started := rfl
@[simp] theorem readV_writeMem (a : Addr) (b : Byte) (z : Reg) : (s.writeMem a b).readV z = s.readV z := rfl
@[simp] theorem ea_writeMem (a : Addr) (b : Byte) (k : Nat) : (s.writeMem a b).ea k = s.ea k := rfl
@[simp] theorem input_writeMem (a : Addr) (b : Byte) : (s.writeMem a b).input = s.input := rfl

end Sys2Proof.Machine
end

