-- ==== Sys2Proof/Laws/Memory.lean ====
section
/-! SUPPORT. Memory: every operation keeps the canonical form, a read after a write gives the value
written, a write leaves every other address alone, and canonical memories that read alike are equal. -/

namespace Sys2Proof.Machine

namespace Memory

theorem wfFrom_cons (lo a : Nat) (v : Byte) (m : Memory) :
    wfFrom lo ((a, v) :: m) = true ↔ lo ≤ a ∧ a < 4096 ∧ v ≠ unlisted ∧ wfFrom (a + 1) m = true := by
  simp only [wfFrom, Bool.and_eq_true, decide_eq_true_eq, and_assoc]
  rfl

/-- The canonical form from an address is the canonical form from any lower one. -/
theorem wfFrom_mono {m : Memory} {lo lo' : Nat} (h : wfFrom lo m = true) (hle : lo' ≤ lo) :
    wfFrom lo' m = true := by
  cases m with
  | nil => rfl
  | cons c m =>
    obtain ⟨a, v⟩ := c
    rw [wfFrom_cons] at h ⊢
    exact ⟨by omega, h.2⟩

/-- Below its first address a canonical memory lists nothing. -/
theorem read_of_lt {m : Memory} {lo a : Nat} (h : wfFrom lo m = true) (ha : a < lo) : read m a = unlisted := by
  induction m generalizing lo with
  | nil => rfl
  | cons c m ih =>
    obtain ⟨b, w⟩ := c
    rw [wfFrom_cons] at h
    have hne : a ≠ b := by omega
    simp [read, hne, ih h.2.2.2 (by omega)]

theorem write_wfFrom {m : Memory} {lo a : Nat} {v : Byte} (h : wfFrom lo m = true) (hlo : lo ≤ a)
    (ha : a < 4096) : wfFrom lo (write m a v) = true := by
  induction m generalizing lo with
  | nil =>
    by_cases hv : v = unlisted
    · simp [write, hv, wfFrom]
    · simp [write, hv, wfFrom, hlo, ha, Config.memSize]
  | cons c m ih =>
    obtain ⟨b, w⟩ := c
    have hc := h
    rw [wfFrom_cons] at h
    obtain ⟨h1, h2, h3, h4⟩ := h
    by_cases hab : a < b
    · by_cases hv : v = unlisted
      · simpa [write, hab, hv] using hc
      · simp only [write, hab, hv, if_true, if_false]
        rw [wfFrom_cons, wfFrom_cons]
        exact ⟨hlo, ha, hv, by omega, h2, h3, h4⟩
    · by_cases he : a = b
      · subst he
        by_cases hv : v = unlisted
        · simpa [write, hv] using wfFrom_mono h4 (by omega)
        · simp only [write, lt_irrefl, hv, if_true, if_false]
          rw [wfFrom_cons]
          exact ⟨hlo, ha, hv, h4⟩
      · simp only [write, hab, he, if_false]
        rw [wfFrom_cons]
        exact ⟨h1, h2, h3, ih h4 (by omega)⟩

/-- A write keeps the canonical form. -/
theorem write_wf {m : Memory} {a : Nat} {v : Byte} (h : m.wf = true) (ha : a < 4096) : (m.write a v).wf = true :=
  write_wfFrom h (Nat.zero_le a) ha

/-- Loading bytes that end below 4096 keeps the canonical form. -/
theorem load_wf {m : Memory} {a : Nat} {vs : List Byte} (h : m.wf = true) (ha : a + vs.length ≤ 4096) :
    (m.load a vs).wf = true := by
  induction vs generalizing m a with
  | nil => exact h
  | cons v vs ih =>
    simp only [List.length_cons] at ha
    exact ih (write_wf h (by omega)) (by omega)

/-- A read after a write, at the same address and at any other. -/
theorem read_writeFrom {m : Memory} {lo a : Nat} {v : Byte} (h : wfFrom lo m = true) (b : Nat) :
    read (write m a v) b = if b = a then v else read m b := by
  induction m generalizing lo with
  | nil =>
    by_cases hv : v = unlisted
    · simp [write, hv, read]
    · simp [write, hv, read]
  | cons c m ih =>
    obtain ⟨d, w⟩ := c
    have hc := h
    rw [wfFrom_cons] at h
    obtain ⟨-, -, -, h4⟩ := h
    by_cases had : a < d
    · by_cases hv : v = unlisted
      · by_cases hb : b = a
        · subst hb
          have : wfFrom d ((d, w) :: m) = true := by
            rw [wfFrom_cons] at hc ⊢; exact ⟨le_refl d, hc.2⟩
          rw [if_pos rfl, hv]
          simp only [write, had, if_true]
          exact read_of_lt this had
        · simp [write, had, hv, hb]
      · simp only [write, had, hv, if_true, if_false, read]
    · by_cases he : a = d
      · subst he
        by_cases hv : v = unlisted
        · by_cases hb : b = a
          · subst hb
            rw [if_pos rfl, hv]
            simp only [write, lt_irrefl, if_true, if_false]
            exact read_of_lt h4 (by omega)
          · simp [write, hv, read, hb]
        · by_cases hb : b = a
          · simp [write, hv, read, hb]
          · simp [write, hv, read, hb]
      · by_cases hb : b = d
        · subst hb
          have : b ≠ a := fun h => he h.symm
          simp [write, had, he, read, this]
        · simp [write, had, he, read, hb, ih h4]

theorem read_write {m : Memory} {v : Byte} (h : m.wf = true) (a b : Nat) :
    read (write m a v) b = if b = a then v else read m b := read_writeFrom h b

/-- What a load leaves: byte `j` of the list at `a + j`, every other address as before. -/
theorem read_load {m : Memory} {a : Nat} {vs : List Byte} (h : m.wf = true) (ha : a + vs.length ≤ 4096) (b : Nat) :
    read (load m a vs) b = if hb : a ≤ b ∧ b - a < vs.length then vs[b - a]'hb.2 else read m b := by
  induction vs generalizing m a with
  | nil => simp [load]
  | cons v vs ih =>
    simp only [List.length_cons] at ha
    rw [load, ih (write_wf h (by omega)) (by omega), read_write h]
    by_cases h1 : b = a
    · subst h1; simp
    · by_cases h2 : a + 1 ≤ b
      · obtain ⟨k, rfl⟩ : ∃ k, b = a + 1 + k := ⟨b - (a + 1), by omega⟩
        have e1 : a + 1 + k - (a + 1) = k := by omega
        have e2 : a + 1 + k - a = k + 1 := by omega
        simp only [e1, e2, List.length_cons, List.getElem_cons_succ, h1, if_false]
        by_cases h3 : k < vs.length
        · simp [h3, show a ≤ a + 1 + k by omega]
        · simp [h3]
      · simp [h1, show ¬ a + 1 ≤ b by omega, show ¬ a ≤ b by omega]

/-- Canonical memories that read alike from `lo` up are the same list. -/
theorem ext_from {m m' : Memory} {lo : Nat} (h : wfFrom lo m = true) (h' : wfFrom lo m' = true)
    (hr : ∀ a, lo ≤ a → read m a = read m' a) : m = m' := by
  induction m generalizing m' lo with
  | nil =>
    cases m' with
    | nil => rfl
    | cons c m' =>
      obtain ⟨b, w⟩ := c
      rw [wfFrom_cons] at h'
      have := hr b h'.1
      simp [read] at this
      exact absurd this.symm h'.2.2.1
  | cons c m ih =>
    obtain ⟨a, v⟩ := c
    rw [wfFrom_cons] at h
    obtain ⟨h1, h2, h3, h4⟩ := h
    cases m' with
    | nil =>
      have := hr a h1
      simp [read] at this
      exact absurd this h3
    | cons c' m' =>
      obtain ⟨b, w⟩ := c'
      rw [wfFrom_cons] at h'
      obtain ⟨g1, g2, g3, g4⟩ := h'
      have hab : a = b := by
        rcases lt_trichotomy a b with hlt | he | hgt
        · have := hr a h1
          simp [read, show a ≠ b by omega, read_of_lt g4 (show a < b + 1 by omega)] at this
          exact absurd this h3
        · exact he
        · have := hr b g1
          simp [read, show b ≠ a by omega, read_of_lt h4 (show b < a + 1 by omega)] at this
          exact absurd this.symm g3
      subst hab
      have hvw : v = w := by simpa [read] using hr a h1
      subst hvw
      have := ih h4 g4 fun c hc => by
        have := hr c (by omega)
        simpa [read, show c ≠ a by omega] using this
      rw [this]

/-- A canonical memory lists nothing at 4096 or above. -/
theorem read_of_ge {m : Memory} {lo a : Nat} (h : wfFrom lo m = true) (ha : 4096 ≤ a) : read m a = unlisted := by
  induction m generalizing lo with
  | nil => rfl
  | cons c m ih =>
    obtain ⟨b, w⟩ := c
    rw [wfFrom_cons] at h
    have hne : a ≠ b := by omega
    simp [read, hne, ih h.2.2.2]

/-- Equal memories are equal data. -/
theorem ext {m m' : Memory} (h : m.wf = true) (h' : m'.wf = true) (hr : ∀ a, read m a = read m' a) : m = m' :=
  ext_from h h' fun a _ => hr a

end Memory

/-- A store keeps the canonical form. -/
theorem writeMem_wf {s : State} (h : s.mem.wf = true) (a : Addr) (b : Byte) : (s.writeMem a b).mem.wf = true :=
  Memory.write_wf h a.isLt

/-- A read after a store (R52, R53). -/
theorem readMem_writeMem {s : State} (h : s.mem.wf = true) (a c : Addr) (b : Byte) :
    (s.writeMem a b).readMem c = if c = a then b else s.readMem c := by
  simp only [State.writeMem, State.readMem, Memory.read_write h, BitVec.toNat_inj]

/-- Canonical memories whose 4096 bytes read alike are equal data. -/
theorem mem_ext {s t : State} (hs : s.mem.wf = true) (ht : t.mem.wf = true)
    (hr : ∀ a : Addr, s.readMem a = t.readMem a) : s.mem = t.mem := by
  refine Memory.ext hs ht fun a => ?_
  by_cases ha : a < 4096
  · simpa [State.readMem, Nat.mod_eq_of_lt ha] using hr (BitVec.ofNat 12 a)
  · rw [Memory.read_of_ge hs (by omega), Memory.read_of_ge ht (by omega)]

end Sys2Proof.Machine
end

