-- ==== Sys2Proof/Laws/Ops.lean ====
section
/-! SUPPORT. What each shared operation can do, said once: registers, program counter, stack, timers,
the environment's answers and the frame of a step. -/

namespace Sys2Proof.Machine

variable (s : State)

/-! ## Registers -/

/-- A register read after a register write (R21). -/
theorem readV_writeV (x z : Reg) (b : Byte) : (s.writeV x b).readV z = if z = x then b else s.readV z := by
  by_cases h : z = x
  · subst h; simp [State.readV]
  · have h' : x.val ≠ z.val := fun e => h (Fin.ext e.symm)
    simp [State.readV, h, h']

@[simp] theorem readV_writeV_same (x : Reg) (b : Byte) : (s.writeV x b).readV x = b := by
  simp [readV_writeV]

theorem readV_writeV_other {x z : Reg} (h : z ≠ x) (b : Byte) : (s.writeV x b).readV z = s.readV z := by
  simp [readV_writeV, h]

/-- A register read after a flag write: VF holds 1 or 0, every other register is as before (R24). -/
theorem readV_writeFlag (z : Reg) (f : Bool) :
    (s.writeFlag f).readV z = if z = flagReg then (if f then 1 else 0) else s.readV z :=
  readV_writeV s flagReg z _

/-! ## Program counter -/

/-- The 12-bit sum is the sum modulo 4096 (R104). -/
theorem pcNext_toNat : s.pcNext.pc.toNat = (s.pc.toNat + 2) % 4096 := by simp [BitVec.toNat_add]

theorem pcSkip_toNat : s.pcSkip.pc.toNat = (s.pc.toNat + 4) % 4096 := by simp [BitVec.toNat_add]

/-- A skip is one of the two program counter updates (R145). -/
theorem pcSkipIf_eq (c : Bool) : s.pcSkipIf c = s.setPc (if c then s.pc + 4 else s.pc + 2) := by
  cases c <;> rfl

/-- The effective address is the sum modulo 4096 (R55). -/
theorem ea_toNat (k : Nat) : (s.ea k).toNat = (s.i.toNat + k) % 4096 := by
  simp [State.ea, BitVec.toNat_add]

/-! ## Call stack -/

/-- Push succeeds exactly below capacity, and then writes one cell and counts it (R28). -/
theorem push_eq_some {a : Addr} {t : State} :
    s.push a = some t ↔ ∃ h : s.sp.val < 16,
      t = { s with stack := s.stack.set s.sp.val a h, sp := ⟨s.sp.val + 1, Nat.succ_lt_succ h⟩ } := by
  unfold State.push
  split
  · rename_i h
    simp only [Option.some.injEq]
    exact ⟨fun e => ⟨h, e.symm⟩, fun ⟨_, e⟩ => e.symm⟩
  · rename_i h
    simp [h]

theorem push_eq_none {a : Addr} : s.push a = none ↔ s.sp.val = 16 := by
  unfold State.push
  split
  · rename_i h
    simp; omega
  · simp; omega

theorem pop_eq_none : s.pop = none ↔ s.sp.val = 0 := by
  obtain ⟨v, i, pc, ⟨k, hk⟩, stack, dt, st, mem, reply, inputs, requests, params, started⟩ := s
  cases k <;> simp [State.pop]

/-- Pop of a non-empty stack gives the newest entry and only counts it off (R28). -/
theorem pop_of_succ {k : Nat} (hk : k < 16) (h : s.sp.val = k + 1) :
    s.pop = some (s.stack[k], { s with sp := ⟨k, Nat.lt_succ_of_lt hk⟩ }) := by
  obtain ⟨v, i, pc, ⟨k', hk'⟩, stack, dt, st, mem, reply, inputs, requests, params, started⟩ := s
  simp only at h
  subst h
  rfl

/-! ## Timers -/

/-- One count: down by one, never below zero (R30). -/
theorem countDown_toNat (b : Byte) : (countDown b).toNat = b.toNat - 1 := by
  by_cases h : b = 0
  · simp [countDown, h]
  · have h0 : b.toNat ≠ 0 := fun e => h (BitVec.eq_of_toNat_eq (by simpa using e))
    have := b.isLt
    simp only [countDown, h, if_false, BitVec.toNat_sub]
    simp; omega

/-! ## The environment's answers -/

theorem input_of_cons {inp : StepInput} {rest : List StepInput} (h : s.inputs = inp :: rest) : s.input = inp := by
  simp [State.input, h]

/-! ## The frame of a step -/

theorem endStep_of_held (h : s.reply = .held) : s.endStep = s.endRequest := by
  simp [State.endStep, h]

theorem endStep_of_not_held (h : s.reply ≠ .held) : s.endStep = s.tickTimers.endRequest := by
  unfold State.endStep
  split <;> simp_all

@[simp] theorem endStep_v : s.endStep.v = s.v := by unfold State.endStep; split <;> rfl
@[simp] theorem endStep_i : s.endStep.i = s.i := by unfold State.endStep; split <;> rfl
@[simp] theorem endStep_pc : s.endStep.pc = s.pc := by unfold State.endStep; split <;> rfl
@[simp] theorem endStep_sp : s.endStep.sp = s.sp := by unfold State.endStep; split <;> rfl
@[simp] theorem endStep_stack : s.endStep.stack = s.stack := by unfold State.endStep; split <;> rfl
@[simp] theorem endStep_mem : s.endStep.mem = s.mem := by unfold State.endStep; split <;> rfl
@[simp] theorem endStep_reply : s.endStep.reply = s.reply := by unfold State.endStep; split <;> rfl
@[simp] theorem endStep_inputs : s.endStep.inputs = s.inputs.tail := by unfold State.endStep; split <;> rfl
@[simp] theorem endStep_requests : s.endStep.requests = s.requests + 1 := by unfold State.endStep; split <;> rfl
@[simp] theorem endStep_params : s.endStep.params = s.params := by unfold State.endStep; split <;> rfl
@[simp] theorem endStep_started : s.endStep.started = s.started := by unfold State.endStep; split <;> rfl
@[simp] theorem readV_endStep (z : Reg) : s.endStep.readV z = s.readV z := by simp [State.readV]
@[simp] theorem readMem_endStep (a : Addr) : s.endStep.readMem a = s.readMem a := by simp [State.readMem]

/-- Closing a step around a next state gives a next state. -/
theorem completeStep_next {o : Result} {t : State} :
    completeStep o = .next t ↔ ∃ u, o = .next u ∧ t = u.endStep := by
  cases o <;> simp [completeStep, eq_comm]

end Sys2Proof.Machine
end

