-- ==== Sys2Proof/Laws/Operands.lean ====
section
/-! SUPPORT. What the operand forms compute, in exact numbers; the block transfers; the pixels. -/

namespace Sys2Proof.Machine

/-! ## Results as exact numbers (R160) -/

theorem satAdd_toNat (a b : Byte) : (satAdd a b).toNat = min (a.toNat + b.toNat) 255 := by
  simp only [satAdd, BitVec.toNat_ofNat]; omega

theorem satSub_toNat (a b : Byte) : (satSub a b).toNat = a.toNat - b.toNat := by
  have := a.isLt
  have := b.isLt
  unfold satSub
  split
  · simp; omega
  · simp only [BitVec.toNat_sub]; omega

theorem shiftLeftOne_toNat (a : Byte) : (shiftLeftOne a).toNat = 2 * a.toNat % 256 := by
  simp only [shiftLeftOne, BitVec.toNat_shiftLeft, Nat.shiftLeft_eq]
  omega

theorem satAddAddr_toNat (a : Addr) (b : Byte) : (satAddAddr a b).toNat = min (a.toNat + b.toNat) 0xFFF := by
  simp only [satAddAddr, Config.iMax, BitVec.toNat_ofNat]; omega

theorem glyphAddr_toNat (p : Params) (b : Byte) :
    (glyphAddr p b).toNat = (p.fontBase.toNat + p.glyphStride * b.toNat) % 4096 := by
  simp [glyphAddr]

theorem indexedTarget_toNat (nnn : Addr) (b : Byte) : (indexedTarget nnn b).toNat = (nnn.toNat + b.toNat) % 4096 := by
  simp [indexedTarget]

theorem bcd_toNat (b : Byte) :
    (bcdOnes b).toNat = b.toNat % 10 ∧ (bcdTens b).toNat = b.toNat / 10 % 10 ∧
      (bcdHundreds b).toNat = b.toNat / 100 := by
  have := b.isLt
  simp only [bcdOnes, bcdTens, bcdHundreds, BitVec.toNat_ofNat]
  omega

/-- Bit 7 says whether the byte is at least 128 (R161). -/
theorem shiftedOutFlag_eq (a : Byte) : shiftedOutFlag a = decide (128 ≤ a.toNat) := by
  have := a.isLt
  simp only [shiftedOutFlag, BitVec.getLsbD, Nat.testBit_eq_decide_div_mod_eq]
  congr 1
  simp only [eq_iff_iff]
  omega

/-! ## Effective addresses -/

/-- Within one transfer all addresses are distinct (R59). -/
theorem ea_inj (s : State) {j k : Nat} (hj : j < 4096) (hk : k < 4096) (h : s.ea j = s.ea k) : j = k := by
  have h' := congrArg BitVec.toNat h
  rw [ea_toNat, ea_toNat] at h'
  have := s.i.isLt
  omega

/-! ## Block transfers (R201, R202) -/

/-- A block store changes memory only. -/
theorem storeRegs_eq (n : Nat) (s : State) : s.storeRegs n = { s with mem := (s.storeRegs n).mem } := by
  induction n with
  | zero => rfl
  | succ n ih =>
    simp only [State.storeRegs]
    rw [ih]
    rfl

@[simp] theorem readV_storeRegs (n : Nat) (s : State) (z : Reg) : (s.storeRegs n).readV z = s.readV z := by
  rw [storeRegs_eq]; rfl

@[simp] theorem ea_storeRegs (n k : Nat) (s : State) : (s.storeRegs n).ea k = s.ea k := by
  rw [storeRegs_eq]; rfl

theorem storeRegs_wf {s : State} (h : s.mem.wf = true) (n : Nat) : (s.storeRegs n).mem.wf = true := by
  induction n with
  | zero => exact h
  | succ n ih => exact writeMem_wf ih _ _

/-- What memory holds after a block store: register `k` at EA(k), every other byte as before. -/
theorem readMem_storeRegs {s : State} (h : s.mem.wf = true) (n : Nat) (a : Addr) :
    (∀ k, k < n → a ≠ s.ea k) → (s.storeRegs n).readMem a = s.readMem a := by
  induction n with
  | zero => intro _; rfl
  | succ n ih =>
    intro hne
    simp only [State.storeRegs, ea_storeRegs, readV_storeRegs]
    rw [readMem_writeMem (storeRegs_wf h n), if_neg (hne n (Nat.lt_succ_self n))]
    exact ih fun k hk => hne k (Nat.lt_succ_of_lt hk)

theorem readMem_storeRegs_ea {s : State} (h : s.mem.wf = true) {n k : Nat} (hn : n ≤ 16) (hk : k < n) :
    (s.storeRegs n).readMem (s.ea k) = s.readV (Fin.ofNat 16 k) := by
  induction n with
  | zero => omega
  | succ n ih =>
    simp only [State.storeRegs, ea_storeRegs, readV_storeRegs]
    rw [readMem_writeMem (storeRegs_wf h n)]
    by_cases hkn : k = n
    · subst hkn; simp
    · rw [if_neg fun e => hkn (ea_inj s (by omega) (by omega) e)]
      exact ih (by omega) (by omega)

/-- A block load changes registers only. -/
theorem loadRegs_eq (n : Nat) (s : State) : s.loadRegs n = { s with v := (s.loadRegs n).v } := by
  induction n with
  | zero => rfl
  | succ n ih =>
    simp only [State.loadRegs]
    rw [ih]
    rfl

@[simp] theorem readMem_loadRegs (n : Nat) (s : State) (a : Addr) : (s.loadRegs n).readMem a = s.readMem a := by
  rw [loadRegs_eq]; rfl

@[simp] theorem ea_loadRegs (n k : Nat) (s : State) : (s.loadRegs n).ea k = s.ea k := by
  rw [loadRegs_eq]; rfl

/-- What the registers hold after a block load: the byte at EA(z) below `n`, else as before. -/
theorem readV_loadRegs {s : State} {n : Nat} (hn : n ≤ 16) (z : Reg) :
    (s.loadRegs n).readV z = if z.val < n then s.readMem (s.ea z.val) else s.readV z := by
  induction n with
  | zero => simp [State.loadRegs]
  | succ n ih =>
    simp only [State.loadRegs, ea_loadRegs, readMem_loadRegs]
    rw [readV_writeV, ih (by omega)]
    have hz : z = Fin.ofNat 16 n ↔ z.val = n := by
      rw [Fin.ext_iff]; simp [Fin.ofNat]; omega
    by_cases h : z.val = n
    · rw [if_pos (hz.2 h), if_pos (by omega), h]
    · rw [if_neg fun e => h (hz.1 e)]
      have h2 : z.val < n + 1 ↔ z.val < n := by omega
      simp only [h2]

/-! ## Pixels (R121) -/

/-- The pixels of one row are exactly its set bits. -/
theorem mem_rowPixels {px py : Nat} {b : Byte} {p : Pixel} :
    p ∈ rowPixels px py b ↔ ∃ k, k < 8 ∧ b.getLsbD (7 - k) = true ∧ p = ⟨px + k, py⟩ := by
  simp only [rowPixels, List.mem_filterMap, List.mem_range]
  constructor
  · rintro ⟨k, hk, h⟩
    split at h
    · exact ⟨k, hk, by assumption, (Option.some.inj h).symm⟩
    · simp at h
  · rintro ⟨k, hk, hb, rfl⟩
    exact ⟨k, hk, by simp [hb]⟩

/-- The pixels of a sprite are exactly the set bits of its rows. -/
theorem mem_spritePixels {s : State} {x y : Reg} {n : Nat} {p : Pixel} :
    p ∈ s.spritePixels x y n ↔ ∃ r k, r < n ∧ k < 8 ∧ (s.readMem (s.ea r)).getLsbD (7 - k) = true ∧
      p = ⟨(s.readV x).toNat + k, (s.readV y).toNat + r⟩ := by
  simp only [State.spritePixels, List.mem_flatMap, List.mem_range, mem_rowPixels]
  constructor
  · rintro ⟨r, hr, k, hk, hb, e⟩; exact ⟨r, k, hr, hk, hb, e⟩
  · rintro ⟨r, k, hr, hk, hb, e⟩; exact ⟨r, hr, k, hk, hb, e⟩

end Sys2Proof.Machine
end

