-- ==== Sys2Proof/Laws/Exec.lean ====
section
/-! SUPPORT. The meanings whose effect has cases, one equation per case; the step and runs of steps; what the driver's requests
can do. -/

namespace Sys2Proof.Machine

variable (s : State)

/-- The call stack is empty or has a newest cell. -/
theorem sp_cases : s.sp.val = 0 ∨ ∃ k, k < 16 ∧ s.sp.val = k + 1 := by
  have := s.sp.isLt
  rcases Nat.eq_zero_or_pos s.sp.val with h | h
  · exact .inl h
  · exact .inr ⟨s.sp.val - 1, by omega, by omega⟩

theorem execRet_empty (h : s.sp.val = 0) : execRet s = .next s := by
  simp only [execRet, (pop_eq_none s).2 h]

theorem execRet_live {k : Nat} (hk : k < 16) (h : s.sp.val = k + 1) :
    execRet s = .next { s with pc := s.stack[k], sp := ⟨k, Nat.lt_succ_of_lt hk⟩ } := by
  simp only [execRet, pop_of_succ s hk h]
  rfl

theorem execCall_free (nnn : Addr) (h : s.sp.val < 16) :
    execCall nnn s = .next { s with
      stack := s.stack.set s.sp.val (s.pc + 2) h, sp := ⟨s.sp.val + 1, Nat.succ_lt_succ h⟩, pc := nnn } := by
  simp only [execCall, (push_eq_some s).2 ⟨h, rfl⟩]
  rfl

theorem execCall_full (nnn : Addr) (h : s.sp.val = 16) : execCall nnn s = .next s.pcNext := by
  simp only [execCall, (push_eq_none s).2 h]

theorem execLdVxK_held (x : Reg) (h : s.input.keyWait = none) : execLdVxK x s = .next s.hold := by
  simp only [execLdVxK, State.keyWait, h]

theorem execLdVxK_key (x : Reg) {k : Byte} (h : s.input.keyWait = some k) :
    execLdVxK x s = .next (s.writeV x k).pcNext := by
  simp only [execLdVxK, State.keyWait, h]

theorem execStoreRegs_eq (x : Reg) :
    execStoreRegs x s = .next { s with mem := (s.storeRegs (x.val + 1)).mem, pc := s.pc + 2 } := by
  unfold execStoreRegs
  rw [storeRegs_eq]
  rfl

theorem execLoadRegs_eq (x : Reg) :
    execLoadRegs x s = .next { s with v := (s.loadRegs (x.val + 1)).v, pc := s.pc + 2 } := by
  unfold execLoadRegs
  rw [loadRegs_eq]
  rfl

/-- The step at a known instruction. -/
theorem step_of_instr {i : Instr} (h : s.instrAtPc = i) : step s = completeStep (exec i s.beginStep) := by
  rw [← h]
  rfl

/-- A step is `exec` between the two halves of the frame. -/
theorem step_eq_next {t : State} :
    step s = .next t ↔ ∃ u, exec s.instrAtPc s.beginStep = .next u ∧ t = u.endStep :=
  completeStep_next

@[simp] theorem instrAtPc_beginStep : s.beginStep.instrAtPc = s.instrAtPc := rfl

/-- Two states with the same pc and the same bytes run the same instruction next. -/
theorem instrAtPc_congr {t : State} (hpc : t.pc = s.pc) (hm : ∀ a, t.readMem a = s.readMem a) :
    t.instrAtPc = s.instrAtPc := by
  simp only [State.instrAtPc, State.fetch16, hpc, hm]

theorem runSteps_zero : runSteps 0 s = .next s := rfl

/-- A run is a step and then the rest of the run. -/
theorem runSteps_succ {n : Nat} {t : State} (h : step s = .next t) : runSteps (n + 1) s = runSteps n t := by
  show Host.Core.run Sys2Proof.core (n + 1) s = _
  have h' : Sys2Proof.core.step s = .next t := h
  simp only [Host.Core.run, h']

/-- Frames compose. -/
theorem ChangesOnly.trans {s t u : State} {ps : List Part} (h : ChangesOnly s t ps) (h' : ChangesOnly t u ps) :
    ChangesOnly s u ps := by
  intro p hp
  have a := h p hp
  have b := h' p hp
  cases p <;> exact b.trans a

/-- A frame may be widened. -/
theorem ChangesOnly.mono {s t : State} {ps qs : List Part} (h : ChangesOnly s t ps) (hq : ∀ p, p ∈ ps → p ∈ qs) :
    ChangesOnly s t qs := fun p hp => h p fun hp' => hp (hq p hp')

theorem ChangesOnly.refl (ps : List Part) : ChangesOnly s s ps := by
  intro p _
  cases p <;> rfl

/-! ## The driver's requests -/

/-- What an Advance can do: on a started core, one step with the answers it carries (R253); else a refusal (R252). -/
theorem serve_advance_started (inp : StepInput) (h : s.started = true) :
    serve (.advance inp) s = step { s with inputs := inp :: s.inputs } := if_pos h

theorem serve_advance_not_started (inp : StepInput) (h : s.started = false) :
    serve (.advance inp) s = .refused .notYetReset := by simp [serve, h]

/-- What a Reset can do: with an image that fits, the whole state after reset with the memory loaded (R250). -/
theorem serve_reset_fits (lowmem : Vector Byte Config.lowmemSize) {image : List Byte} (h : imageFits image = true) :
    serve (.reset lowmem image) s = .next { State.reset with
      mem := State.resetMemory lowmem image, inputs := s.inputs, requests := s.requests, params := s.params } := by
  simp [serve, State.resetWith, h]

end Sys2Proof.Machine
end

