-- ==== Sys2Proof/Laws/PerInstr.lean ====
section
/-! SUPPORT. Per-instruction family OperandsFit: every operand of every instruction is a number its field
can hold, because the operand types carry the ranges of spec/30_encoding.md R82. -/

namespace Sys2Proof.Laws.OperandsFit

/-- The instruction is well formed. -/
def Statement (i : Instr) : Prop := i.wellFormed = true

theorem fieldsA_fit (nnn : Addr) : (fieldsA nnn).all OperandField.fits = true := by
  have := nnn.isLt
  simp [fieldsA, OperandField.fits]; omega

theorem fieldsRI_fit (x : Reg) (nn : Byte) : (fieldsRI x nn).all OperandField.fits = true := by
  have := nn.isLt
  simp [fieldsRI, OperandField.fits]; omega

theorem fieldsRR_fit (x y : Reg) : (fieldsRR x y).all OperandField.fits = true := by
  simp [fieldsRR, OperandField.fits]

theorem fieldsRS_fit (x : Reg) : (fieldsRS x).all OperandField.fits = true := by
  simp [fieldsRS, OperandField.fits]

theorem cls : Statement (.cls) := rfl
theorem ret : Statement (.ret) := rfl
theorem jp (nnn : Addr) : Statement (.jp nnn) := fieldsA_fit nnn
theorem call (nnn : Addr) : Statement (.call nnn) := fieldsA_fit nnn
theorem seImm (x : Reg) (nn : Byte) : Statement (.seImm x nn) := fieldsRI_fit x nn
theorem sneImm (x : Reg) (nn : Byte) : Statement (.sneImm x nn) := fieldsRI_fit x nn
theorem seReg (x : Reg) (y : Reg) : Statement (.seReg x y) := fieldsRR_fit x y
theorem ldImm (x : Reg) (nn : Byte) : Statement (.ldImm x nn) := fieldsRI_fit x nn
theorem addImm (x : Reg) (nn : Byte) : Statement (.addImm x nn) := fieldsRI_fit x nn
theorem ldReg (x : Reg) (y : Reg) : Statement (.ldReg x y) := fieldsRR_fit x y
theorem orReg (x : Reg) (y : Reg) : Statement (.orReg x y) := fieldsRR_fit x y
theorem andReg (x : Reg) (y : Reg) : Statement (.andReg x y) := fieldsRR_fit x y
theorem xorReg (x : Reg) (y : Reg) : Statement (.xorReg x y) := fieldsRR_fit x y
theorem addReg (x : Reg) (y : Reg) : Statement (.addReg x y) := fieldsRR_fit x y
theorem subReg (x : Reg) (y : Reg) : Statement (.subReg x y) := fieldsRR_fit x y
theorem shl (x : Reg) (y : Reg) : Statement (.shl x y) := fieldsRR_fit x y
theorem sneReg (x : Reg) (y : Reg) : Statement (.sneReg x y) := fieldsRR_fit x y
theorem ldI (nnn : Addr) : Statement (.ldI nnn) := fieldsA_fit nnn
theorem jpV0 (nnn : Addr) : Statement (.jpV0 nnn) := fieldsA_fit nnn
theorem rnd (x : Reg) (nn : Byte) : Statement (.rnd x nn) := fieldsRI_fit x nn
theorem drw (x : Reg) (y : Reg) (n : Fin 16) : Statement (.drw x y n) := by
  simp [Statement, Instr.wellFormed, Instr.fields, fieldsRR, OperandField.fits]
theorem skp (x : Reg) : Statement (.skp x) := fieldsRS_fit x
theorem sknp (x : Reg) : Statement (.sknp x) := fieldsRS_fit x
theorem ldVxDt (x : Reg) : Statement (.ldVxDt x) := fieldsRS_fit x
theorem ldVxK (x : Reg) : Statement (.ldVxK x) := fieldsRS_fit x
theorem ldDt (x : Reg) : Statement (.ldDt x) := fieldsRS_fit x
theorem ldSt (x : Reg) : Statement (.ldSt x) := fieldsRS_fit x
theorem addI (x : Reg) : Statement (.addI x) := fieldsRS_fit x
theorem ldF (x : Reg) : Statement (.ldF x) := fieldsRS_fit x
theorem ldB (x : Reg) : Statement (.ldB x) := fieldsRS_fit x
theorem storeRegs (x : Reg) : Statement (.storeRegs x) := fieldsRS_fit x
theorem loadRegs (x : Reg) : Statement (.loadRegs x) := fieldsRS_fit x
theorem unrecognized : Statement (.unrecognized) := rfl

end Sys2Proof.Laws.OperandsFit
end

