-- ==== Sys2Proof/Tests/Slice0.lean ====
section
/-! SUPPORT. The model's own tests: the checks refuse ill-formed terms; words written out from the encodings of
spec/30_encoding.md R81, R86 decode to what they stand for; single steps of spec/95_test_vectors.md; and for every
statement with hypotheses a state that meets them. Expected values are the spec's. -/

set_option Elab.async false

namespace Sys2Proof.Tests

open Sys2Proof.Machine

/-! ## Well-formedness -/

/-- A field of 4 bits refuses 16 (R82). -/
theorem test_field_refuses_large_value : OperandField.fits ⟨11, 8, 16⟩ = false := by decide

/-- A field that ends before it begins is none. -/
theorem test_field_refuses_reversed_bits : OperandField.fits ⟨4, 7, 0⟩ = false := by decide

/-- A field beyond bit 15 is none (R80). -/
theorem test_field_refuses_bits_above_the_word : OperandField.fits ⟨16, 12, 0⟩ = false := by decide

/-- An image of 3585 bytes is refused, one of 3584 is not (R251). -/
theorem test_image_refuses_one_byte_too_many :
    imageFits (List.replicate 3585 0) = false ∧ imageFits (List.replicate 3584 0) = true := by
  constructor <;> (rw [imageFits, List.length_replicate]; rfl)

/-- Memory out of order, with a zero listed, or beyond 4095 is not in canonical form. -/
theorem test_memory_form_refuses :
    Memory.wf [(5, 1), (4, 1)] = false ∧ Memory.wf [(5, 0)] = false ∧ Memory.wf [(4096, 1)] = false ∧
      Memory.wf [(5, 1), (5, 2)] = false := by decide

/-! ## Decoding, one word per constructor, written from the encoding of R86 -/

theorem test_decode_display :
    decode 0b0000000011100000 = .cls ∧ decode 0b1101000100100101 = .drw 1 2 5 := by decide +kernel

theorem test_decode_control :
    decode 0b0000000011101110 = .ret ∧ decode 0b0001101010111100 = .jp 0xABC ∧
      decode 0b0010111111111111 = .call 0xFFF ∧ decode 0b1011001100000000 = .jpV0 0x300 := by decide +kernel

theorem test_decode_skips :
    decode 0b0011110001111111 = .seImm 0xC 0x7F ∧ decode 0b0100000000000001 = .sneImm 0 1 ∧
      decode 0b0101101010110000 = .seReg 0xA 0xB ∧ decode 0b1001000100100000 = .sneReg 1 2 := by decide +kernel

theorem test_decode_loads_and_alu :
    decode 0b0110111100000001 = .ldImm 0xF 1 ∧ decode 0b0111001100010000 = .addImm 3 0x10 ∧
      decode 0b1000101010110000 = .ldReg 0xA 0xB ∧ decode 0b1000101010110001 = .orReg 0xA 0xB ∧
      decode 0b1000101010110010 = .andReg 0xA 0xB ∧ decode 0b1000101010110011 = .xorReg 0xA 0xB ∧
      decode 0b1000101010110100 = .addReg 0xA 0xB ∧ decode 0b1000101010110101 = .subReg 0xA 0xB ∧
      decode 0b1000101010111110 = .shl 0xA 0xB := by decide +kernel

theorem test_decode_address :
    decode 0b1010001000000000 = .ldI 0x200 ∧ decode 0b1111000100011110 = .addI 1 ∧
      decode 0b1111000100101001 = .ldF 1 := by decide +kernel

theorem test_decode_environment :
    decode 0b1100001100001111 = .rnd 3 0x0F ∧ decode 0b1110001010011110 = .skp 2 ∧
      decode 0b1110001010100001 = .sknp 2 ∧ decode 0b1111000100000111 = .ldVxDt 1 ∧
      decode 0b1111000100001010 = .ldVxK 1 ∧ decode 0b1111000100010101 = .ldDt 1 ∧
      decode 0b1111000100011000 = .ldSt 1 := by decide +kernel

theorem test_decode_transfer :
    decode 0b1111000100110011 = .ldB 1 ∧ decode 0b1111000101010101 = .storeRegs 1 ∧
      decode 0b1111000101100101 = .loadRegs 1 := by decide +kernel

/-- The unrecognised words of spec/95_test_vectors.md, decoder table. -/
theorem test_decode_unrecognized :
    ([0x00E1, 0x00EF, 0x0000, 0x0123, 0x01E0, 0x0FFF, 0x5AB1, 0x5ABF, 0x8AB6, 0x8AB7, 0x8AB8, 0x8ABD, 0x8ABF, 0x9121,
      0xE29F, 0xE200, 0xE2A0, 0xF100, 0xF175, 0xF185, 0xF1FF, 0xF130, 0xF11F] : List Word).all
        (fun w => decode w == .unrecognized) = true := by decide +kernel

/-- One byte is no instruction (R80); two bytes are, whatever follows. -/
theorem test_decode_bytes :
    decodeBytes [0xA2] = .error .truncated ∧ decodeBytes [] = .error .truncated ∧
      decodeTableWord 16 0xD001 = some (.drw 0 0 1) := by
  refine ⟨rfl, rfl, ?_⟩
  decide +kernel

/-! ## Single steps -/

/-- The state after reset with the registers `vs` (index, value) and the word `w` at pc. -/
def start (w : Nat) (vs : List (Reg × Byte)) : State :=
  (vs.foldl (fun s p => s.writeV p.1 p.2) State.reset).withFetchWord 16 w

/-- The state a result goes on in, if it does. -/
def next? : Result → Option State
  | .next t => some t
  | .fault _ => none
  | .refused _ => none

/-- What one step from `s` leaves, as `f` reads it. -/
def see {α : Type} (s : State) (f : State → α) : Option α := (next? (step s)).map f

/-- R120. -/
theorem test_cls : see (start 0x00E0 []) (fun t => (t.reply, t.pc)) = some (.returned .clear, 0x202) := by decide +kernel

/-- R121, R55: the second row is read from 0x000; VF is untouched. -/
theorem test_drw_wraps_addresses :
    see ((((start 0xD342 [(3, 3), (4, 4), (15, 7)]).setI 0xFFF).writeMem 0xFFF 0x01).writeMem 0x000 0xF0)
      (fun t => (t.reply, t.readV 15)) =
      some (.returned (.toggle [⟨10, 4⟩, ⟨3, 5⟩, ⟨4, 5⟩, ⟨5, 5⟩, ⟨6, 5⟩]), 7) := by decide +kernel

/-- R127: exact coordinates beyond 255. -/
theorem test_drw_exact_coordinates :
    see ((((start 0xD012 [(0, 255), (1, 255)]).setI 0x20C).writeMem 0x20C 0xC0).writeMem 0x20D 0x81) State.reply =
      some (.returned (.toggle [⟨255, 255⟩, ⟨256, 255⟩, ⟨255, 256⟩, ⟨262, 256⟩])) := by decide +kernel

/-- R130: S12, and a pop that keeps the cell. -/
theorem test_ret :
    see { start 0x00EE [] with dt := 3 } (fun t => (t.pc, t.sp.val, t.dt)) = some (0x200, 0, 2) ∧
      see { start 0x00EE [] with sp := 1, stack := (Vector.replicate 16 0).set 0 0x208 }
        (fun t => (t.pc, t.sp.val, t.stack[0])) = some (0x208, 0, 0x208) := by decide +kernel

/-- R131: an odd target is legal. -/
theorem test_jp_odd : see (start 0x1201 []) State.pc = some 0x201 := by decide +kernel

/-- R132: the last free cell is filled; the 17th nested call is dropped. -/
theorem test_call :
    see { start 0x2300 [] with sp := 15 } (fun t => (t.pc, t.sp.val, t.stack[15])) = some (0x300, 16, 0x202) ∧
      see { start 0x2300 [] with sp := 16 } (fun t => (t.pc, t.sp.val, t.stack[15])) = some (0x202, 16, 0) := by
  decide +kernel

/-- R133: the x digit is part of nnn, and the sum wraps. -/
theorem test_jpV0 :
    see (start 0xBFFF [(0, 0xFF), (15, 1)]) State.pc = some 0x0FE ∧ see (start 0xB350 [(3, 9)]) State.pc = some 0x350 := by
  decide +kernel

/-- R140, R141, R142, R143. -/
theorem test_skips_taken :
    see (start 0x3F01 [(15, 1)]) State.pc = some 0x204 ∧ see (start 0x4311 [(3, 0x10)]) State.pc = some 0x204 ∧
      see (start 0x5120 [(1, 7), (2, 7)]) State.pc = some 0x204 ∧
      see (start 0x9120 [(1, 7), (2, 8)]) State.pc = some 0x204 := by decide +kernel

theorem test_skips_not_taken :
    see (start 0x3000 [(0, 4)]) State.pc = some 0x202 ∧ see (start 0x4310 [(3, 0x10)]) State.pc = some 0x202 ∧
      see (start 0x5120 [(1, 7), (2, 8)]) State.pc = some 0x202 ∧ see (start 0x9330 []) State.pc = some 0x202 := by
  decide +kernel

/-- R144: a taken skip wraps at the top of memory. -/
theorem test_skip_wraps :
    see ((State.reset.setPc 0xFFE).withFetchWord 16 0x3000) State.pc = some 0x002 := by decide +kernel

/-- R150, R151: the load, and a sum that saturates and leaves VF alone. -/
theorem test_loads :
    see (start 0x6F2A []) (fun t => t.readV 15) = some 0x2A ∧ see (start 0x8120 [(2, 9)]) (fun t => t.readV 1) = some 9 ∧
      see (start 0x7006 [(0, 250)]) (fun t => (t.readV 0, t.readV 15)) = some (255, 0) := by decide +kernel

/-- R153, R154, R155: VF untouched by OR; XOR of a register with itself. -/
theorem test_bitwise :
    see (start 0x8121 [(1, 0x0F), (2, 0xF0), (15, 1)]) (fun t => (t.readV 1, t.readV 15)) = some (0xFF, 1) ∧
      see (start 0x8122 [(1, 0x3C), (2, 0x0F)]) (fun t => t.readV 1) = some 0x0C ∧
      see (start 0x8113 [(1, 0x5A)]) (fun t => t.readV 1) = some 0 := by decide +kernel

/-- R156: the boundary of the carry, and x = F where only the flag stays. -/
theorem test_addReg :
    see (start 0x8124 [(1, 200), (2, 56)]) (fun t => (t.readV 1, t.readV 15)) = some (255, 1) ∧
      see (start 0x8124 [(1, 200), (2, 55), (15, 9)]) (fun t => (t.readV 1, t.readV 15)) = some (255, 0) ∧
      see (start 0x8F14 [(15, 1), (1, 2)]) (fun t => t.readV 15) = some 0 := by decide +kernel

/-- R157: the borrow polarity, and x = F. -/
theorem test_subReg :
    see (start 0x8025 [(0, 5), (2, 6)]) (fun t => (t.readV 0, t.readV 15)) = some (0, 1) ∧
      see (start 0x8025 [(0, 10), (2, 3), (15, 1)]) (fun t => (t.readV 0, t.readV 15)) = some (7, 0) ∧
      see (start 0x8F15 [(15, 3), (1, 1)]) (fun t => t.readV 15) = some 0 := by decide +kernel

/-- R158: y ignored, and x = F. -/
theorem test_shl :
    see (start 0x84AE [(4, 0x7F), (10, 3)]) (fun t => (t.readV 4, t.readV 15, t.readV 10)) = some (0xFE, 0, 3) ∧
      see (start 0x8F0E [(15, 0x81)]) (fun t => t.readV 15) = some 1 := by decide +kernel

/-- R170, R171: the ceiling, exact and exceeded, and x = F. -/
theorem test_addI :
    see (start 0xAFFF []) State.i = some 0xFFF ∧
      see ((start 0xF41E [(4, 0xFE), (15, 1)]).setI 0xF01) (fun t => (t.i, t.readV 15)) = some (0xFFF, 0) ∧
      see ((start 0xF41E [(4, 0xFF)]).setI 0xF01) (fun t => (t.i, t.readV 15)) = some (0xFFF, 1) ∧
      see ((start 0xFF1E [(15, 5)]).setI 0x100) (fun t => (t.i, t.readV 15)) = some (0x105, 0) := by decide +kernel

/-- R172: the index is not masked, and the sum wraps for another FONT_BASE. -/
theorem test_ldF :
    see (start 0xF329 [(3, 0xFF)]) State.i = some 0x4FB ∧
      see { start 0xF329 [(3, 1)] with params := { fontBase := 0xFFE } } State.i = some 0x003 := by decide +kernel

/-- R180, R181, R182 with the answers given. -/
theorem test_environment_answers :
    see { start 0xC30F [] with inputs := [⟨0xA7, [], none⟩] } (fun t => (t.readV 3, t.inputs)) = some (0x07, []) ∧
      see { start 0xE29E [(2, 0xC8)] with inputs := [⟨0, [0xC8], none⟩] } State.pc = some 0x204 ∧
      see { start 0xE2A1 [(2, 5)] with inputs := [⟨0, [5], none⟩] } State.pc = some 0x202 := by decide +kernel

/-- R184, R108: held, then taken. -/
theorem test_ldK :
    see { start 0xF60A [] with dt := 9, inputs := [⟨0, [], none⟩] } (fun t => (t.reply, t.pc, t.dt)) =
        some (.held, 0x200, 9) ∧
      see { start 0xF60A [] with dt := 9, inputs := [⟨0, [], some 0x0B⟩] } (fun t => (t.readV 6, t.pc, t.dt)) =
        some (0x0B, 0x202, 8) := by decide +kernel

/-- R106, R183, R185, R186. -/
theorem test_timers :
    see { start 0xF107 [] with dt := 2 } (fun t => (t.readV 1, t.dt)) = some (2, 1) ∧
      see (start 0xF015 [(0, 3)]) State.dt = some 2 ∧ see (start 0xF518 [(5, 255)]) State.st = some 254 := by decide +kernel

/-- R200: digits 123 lowest first, and the wrap at the top of memory. -/
theorem test_ldB :
    see ((start 0xF033 [(0, 123)]).setI 0x300) (fun t => (t.readMem 0x300, t.readMem 0x301, t.readMem 0x302)) =
        some (3, 2, 1) ∧
      see ((start 0xF733 [(7, 200)]).setI 0xFFF) (fun t => (t.readMem 0xFFF, t.readMem 0x000, t.readMem 0x001)) =
        some (0, 0, 2) := by decide +kernel

/-- R201: the last register is included, the next is not; I is unchanged. -/
theorem test_storeRegs :
    see ((start 0xF155 [(0, 0x12), (1, 0x0C), (2, 0x99)]).setI 0x208)
      (fun t => (t.readMem 0x208, t.readMem 0x209, t.readMem 0x20A, t.i)) = some (0x12, 0x0C, 0, 0x208) := by decide +kernel

/-- R202, R55: the wrap at the top of memory. -/
theorem test_loadRegs :
    see ((((start 0xF165 [(2, 9)]).setI 0xFFF).writeMem 0xFFF 0x11).writeMem 0x000 0x22)
      (fun t => (t.readV 0, t.readV 1, t.readV 2)) = some (0x11, 0x22, 9) := by decide +kernel

/-- R210. -/
theorem test_unrecognized :
    see { start 0x8AB6 [] with dt := 4 } (fun t => (t.pc, t.dt, t.reply)) = some (0x202, 3, .returned .unchanged) := by
  decide +kernel

/-- R56: an instruction that straddles the top of memory. -/
theorem test_fetch_straddles :
    see ((State.reset.setPc 0xFFF).withFetchWord 16 0x6107) (fun t => (t.readV 1, t.pc)) = some (7, 0x001) := by
  decide +kernel

/-- R250: LOWMEM and IMAGE are where the spec puts them; the default Reset is the reset state. -/
theorem test_reset_default :
    State.reset.resetWith (Vector.replicate 512 0) [] = some State.reset := by decide +kernel

/-- R252: before the first Reset an Advance is refused; a Reset that is served starts the core. -/
theorem test_no_step_before_the_first_reset :
    let s : State := { start 0x6001 [] with started := false }
    serve (.advance ⟨0, [], none⟩) s = .refused .notYetReset ∧
      (s.resetWith (Vector.replicate 512 0) []).map State.started = some true :=
  ⟨serve_advance_not_started _ _ rfl, by decide +kernel⟩

theorem test_reset_places_image :
    (State.reset.resetWith (Vector.replicate 512 7) [0xA2, 0x04]).map
      (fun t => (t.readMem 0x000, t.readMem 0x1FF, t.readMem 0x200, t.readMem 0x201, t.readMem 0x202)) =
      some (7, 7, 0xA2, 0x04, 0) := by decide +kernel

/-! ## Witnesses: for every statement with hypotheses, states that meet all of them -/

/-- A state whose first answer reports `key`. -/
def keyed (w : Nat) (key : Option Byte) : State := { start w [] with inputs := [⟨0x5A, [5], key⟩] }

theorem witness_LdKStoresReportedKey : (keyed 0xF60A (some 0xFF)).input.keyWait = some 0xFF := by decide +kernel

theorem witness_HeldStepChangesNoCoreState :
    (keyed 0xFF0A none).instrAtPc = .ldVxK 15 ∧ (keyed 0xFF0A none).input.keyWait = none := by decide +kernel

theorem witness_TimerStepsCountAfterTheirEffect :
    (start 0xF015 [(0, 255)]).instrAtPc = .ldDt 0 ∧ (start 0xFF18 []).instrAtPc = .ldSt 15 ∧
      (start 0xF007 []).instrAtPc = .ldVxDt 0 := by decide +kernel

/-- LdBWritesDecimalDigits, StoreRegsCopiesToMemory, ReadsSeeTheMostRecentStore: a memory in canonical form
with bytes at both ends. -/
theorem witness_memory_in_canonical_form :
    ((start 0xFF55 []).writeMem 0 1 |>.writeMem 0xFFF 0xFF).mem.wf = true := by decide +kernel

/-- A state with VF = 0xEE, V0 = 0x60, V1 = 0x07 and I just after the instruction at pc. -/
def storing (w : Nat) : State := (start w [(0, 0x60), (1, 0x07), (15, 0xEE)]).setI 0x202

/-- The clause on LD [I], Vx, with x = F, and the clause on LD B. -/
theorem witness_StoreThenLoadGivesValuesBack :
    ∃ t t', (storing 0xFF55).mem.wf = true ∧ exec (.storeRegs 15) (storing 0xFF55) = .next t ∧ t.i = (storing 0xFF55).i ∧
      exec (.ldB 15) (storing 0xFF55) = .next t' ∧ t'.i = (storing 0xFF55).i :=
  ⟨_, _, by decide +kernel, rfl, by decide +kernel, rfl, by decide +kernel⟩

theorem witness_StoredCodeRunsInTheNextStep :
    (storing 0xF155).mem.wf = true ∧ (storing 0xF155).instrAtPc = .storeRegs 1 ∧
      (storing 0xF155).i = (storing 0xF155).pc + 2 := by decide +kernel

theorem witness_DecodeOfEncodeGivesInstructionBack :
    (Instr.drw 15 15 15).wellFormed = true ∧ (Instr.ldI 0xFFF).wellFormed = true ∧
      (Instr.rnd 0 0xFF).wellFormed = true := by decide

theorem witness_EncodeOfDecodeGivesWordBack : decode 0xFF65 ≠ .unrecognized ∧ decode 0x00E0 ≠ .unrecognized := by
  decide +kernel

theorem witness_StepRunsTheInstructionAtPc :
    decodeBytes [(keyed 0xFF0A none).readMem (keyed 0xFF0A none).pc,
      (keyed 0xFF0A none).readMem ((keyed 0xFF0A none).pc + 1)] = .ok (.ldVxK 15, []) := by
  show Except.ok ((keyed 0xFF0A none).instrAtPc, []) = _
  rw [witness_HeldStepChangesNoCoreState.1]

/-- A completed step, that neither writes a timer, and a held step. -/
theorem witness_TimersCountOncePerCompletedStep :
    (see { start 0x1200 [] with dt := 1, st := 255 } (fun t => decide (t.reply = .held)) = some false) ∧
      (start 0x1200 []).instrAtPc = .jp 0x200 ∧
      see (keyed 0xF60A none) (fun t => decide (t.reply = .held)) = some true := by decide +kernel

/-- PcMovesOnlyAsListed, RegistersChangeOnlyAsListed, OnlyThreeInstructionsWriteI, OnlyTwoInstructionsStore,
StackIsPrivateToCallAndRet: an instruction outside every list completes, and each listed case can be met. -/
theorem witness_exec_completes :
    (next? (exec .cls State.reset)).isSome = true ∧ (next? (exec (.addReg 15 15) State.reset)).isSome = true ∧
      (next? (exec .ret { State.reset with sp := 16 })).isSome = true ∧
      (next? (exec (.call 0) { State.reset with sp := 16 })).isSome = true ∧
      (next? (exec (.call 0) { State.reset with sp := 15 })).isSome = true := by decide +kernel

theorem witness_ReplyIsTheInstructionsOwn :
    (start 0x00E0 []).instrAtPc = .cls ∧ (start 0xDFF0 []).instrAtPc = .drw 15 15 0 ∧
      (start 0x6000 []).instrAtPc = .ldImm 0 0 ∧
      see (start 0xDFF0 []) (fun t => decide (t.reply = .held)) = some false := by decide +kernel

theorem witness_OtherStepsIgnoreTheAnswers : consultsEnvironment (start 0xFF65 []).instrAtPc = false := by decide +kernel

/-- Two states that differ in the value returned before and in the cell at SP. -/
theorem witness_StaleCellsAndRepliesAreUnobservable :
    let s : State := { State.reset with sp := 15 }
    let s' : State := { s with reply := .held, stack := s.stack.set 15 0xABC }
    s.mem.wf = true ∧ s'.mem.wf = true ∧ s ≠ s' ∧
      (∀ p : Part, p ≠ .reply → (∀ k, p = .stack k → k.val < s.sp.val) → p.same s s') := by
  refine ⟨by decide, by decide, by decide +kernel, ?_⟩
  intro p hr hk
  cases p with
  | stack k =>
    have h : k.val < 15 := hk k rfl
    have h' : (15 : Nat) ≠ k.val := by omega
    simp [Part.same, h']
  | reply => exact absurd rfl hr
  | _ => rfl

/-- A subroutine of one LD and a RET: the run after the CALL has one step and stays at the call's depth. -/
def calling : State := ((start 0x2300 []).storeWord 0x300 0x6005).storeWord 0x302 0x00EE

/-- The state after the CALL of `calling`. -/
def called : State := { calling with
  pc := 0x300, sp := 1, stack := calling.stack.set 0 0x202, reply := .returned .unchanged, requests := 1 }

/-- The state before the RET of `calling`. -/
def returning : State := { called with pc := 0x302, v := called.v.set 0 5, requests := 2 }

theorem called_eq : step calling = .next called := by
  rw [step_of_instr calling (i := .call 0x300) (by decide +kernel)]
  rfl

theorem returning_eq : step called = .next returning := by
  rw [step_of_instr called (i := .ldImm 0 5) (by decide +kernel)]
  rfl

theorem witness_SubroutineReturnsAfterItsCall :
    calling.sp.val < 16 ∧ calling.instrAtPc = .call 0x300 ∧ step calling = .next called ∧
      runSteps 1 called = .next returning ∧
      (∀ m w, m ≤ 1 → runSteps m called = .next w → called.sp ≤ w.sp) ∧
      returning.sp = called.sp ∧ returning.instrAtPc = .ret := by
  have h1 : runSteps 1 called = .next returning := by rw [runSteps_succ called returning_eq, runSteps_zero]
  refine ⟨by decide, by decide +kernel, called_eq, h1, ?_, rfl, by decide +kernel⟩
  intro m w hm hw
  obtain rfl | rfl : m = 0 ∨ m = 1 := by omega
  · cases (runSteps_zero called).symm.trans hw
    exact le_refl _
  · cases h1.symm.trans hw
    exact le_refl called.sp

theorem witness_EmptyStackReturnRepeatsForEver :
    (start 0x00EE []).instrAtPc = .ret ∧ (start 0x00EE []).sp.val = 0 ∧ (start 0x00EE []).dt = 0 ∧
      (start 0x00EE []).st = 0 := by decide +kernel

theorem witness_SelfJumpOnlyCountsTimers : (start 0x1200 []).instrAtPc = .jp (start 0x1200 []).pc := by decide +kernel

/-- One completed step that writes neither timer. -/
theorem witness_TimersMeasureSteps :
    runSteps 1 called = .next returning ∧
      (∀ m w w', m < 1 → runSteps m called = .next w → step w = .next w' → w'.reply ≠ .held) ∧
      (∀ m w x, m < 1 → runSteps m called = .next w → w.instrAtPc ≠ .ldDt x) ∧
      (∀ m w x, m < 1 → runSteps m called = .next w → w.instrAtPc ≠ .ldSt x) := by
  have hi : called.instrAtPc = .ldImm 0 5 := by decide +kernel
  refine ⟨by rw [runSteps_succ called returning_eq, runSteps_zero], ?_, ?_, ?_⟩
  · intro m w w' hm hw hs
    obtain rfl : m = 0 := by omega
    cases (runSteps_zero called).symm.trans hw
    cases returning_eq.symm.trans hs
    decide
  · intro m w x hm hw
    obtain rfl : m = 0 := by omega
    cases (runSteps_zero called).symm.trans hw
    rw [hi]
    exact Instr.noConfusion
  · intro m w x hm hw
    obtain rfl : m = 0 := by omega
    cases (runSteps_zero called).symm.trans hw
    rw [hi]
    exact Instr.noConfusion

/-- Two held requests and one with a key. -/
theorem witness_WaitForKeyEndsWithTheFirstKey :
    let waits : List StepInput := [⟨0, [], none⟩, ⟨1, [], none⟩]
    let s : State := { start 0xFF0A [] with inputs := waits ++ [⟨0, [], some 0xFF⟩] }
    s.instrAtPc = .ldVxK 15 ∧ s.inputs = waits ++ ⟨0, [], some 0xFF⟩ :: [] ∧ (∀ inp ∈ waits, inp.keyWait = none) := by
  refine ⟨by decide +kernel, rfl, by decide⟩

/-- ResetLoadsLowmemAndImage and OversizedImageIsRefused, at the boundary. -/
theorem witness_image_lengths :
    (List.replicate 3584 (0xFF : Byte)).length ≤ 3584 ∧ 3584 < (List.replicate 3585 (0xFF : Byte)).length := by
  rw [List.length_replicate, List.length_replicate]
  decide

theorem witness_AdvanceConsultsItsOwnAnswers :
    (start 0xCFFF []).instrAtPc = .rnd 15 0xFF ∧ (start 0xE09E []).instrAtPc = .skp 0 ∧
      (start 0xE0A1 []).instrAtPc = .sknp 0 ∧ (start 0xF00A []).instrAtPc = .ldVxK 0 ∧
      (start 0xCFFF []).started = true ∧ ({ start 0xCFFF [] with started := false } : State).started = false := by
  decide +kernel

/-- EveryStepKeepsTheInvariant, EveryRequestKeepsTheInvariant: a state with bytes at both ends of memory and a
draw in the far corner, from which a step is taken and an Advance served. -/
theorem witness_EveryStepKeepsTheInvariant :
    let s : State := { State.reset with
      mem := [(0, 1), (4095, 0xFF)], reply := .returned (.toggle [⟨262, 269⟩, ⟨0, 0⟩]) }
    s.Inv ∧ (next? (step s)).isSome = true ∧ (next? (serve (.advance ⟨0, [], none⟩) s)).isSome = true := by
  refine ⟨⟨by decide, by decide, by decide, by decide⟩, by decide +kernel, by decide +kernel⟩

end Sys2Proof.Tests
end

/-! # The state: what instructions read and write (spec/10_state.md)

## The reset state (R37) -/

namespace Sys2Proof.Machine

@[simp] theorem readV_reset (x : Reg) : State.reset.readV x = 0 := by
  simp [State.readV, State.reset]

@[simp] theorem readMem_reset (a : Addr) : State.reset.readMem a = 0 := rfl

/-- Settles O54: every field of the reset state is written out in R37, and a memory that lists nothing reads 0. -/
theorem resetStateHoldsTheResetValues : Obligations.ResetStateHoldsTheResetValues := by
  refine ⟨rfl, readV_reset, rfl, rfl, fun k => ?_, rfl, rfl, readMem_reset⟩
  simp [State.reset]

/-- Settles O58: the empty memory is canonical, and the reply `nothing` is legal. -/
theorem resetStateMeetsTheInvariant : Obligations.ResetStateMeetsTheInvariant :=
  ⟨rfl, trivial⟩

end Sys2Proof.Machine

/-! ## What each meaning with cases or a loop leaves unchanged -/

namespace Sys2Proof.Machine

variable {s t : State}

/-- A skip changes pc only (R145). -/
@[simp] theorem pcSkipIf_i (s : State) (c : Bool) : (s.pcSkipIf c).i = s.i := by rw [pcSkipIf_eq, setPc_i]
@[simp] theorem pcSkipIf_sp (s : State) (c : Bool) : (s.pcSkipIf c).sp = s.sp := by rw [pcSkipIf_eq, setPc_sp]
@[simp] theorem pcSkipIf_stack (s : State) (c : Bool) : (s.pcSkipIf c).stack = s.stack := by
  rw [pcSkipIf_eq, setPc_stack]
@[simp] theorem readV_pcSkipIf (s : State) (c : Bool) (z : Reg) : (s.pcSkipIf c).readV z = s.readV z := by
  rw [pcSkipIf_eq, readV_setPc]

@[simp] theorem storeRegs_i (n : Nat) (s : State) : (s.storeRegs n).i = s.i := by rw [storeRegs_eq]
@[simp] theorem storeRegs_sp (n : Nat) (s : State) : (s.storeRegs n).sp = s.sp := by rw [storeRegs_eq]
@[simp] theorem storeRegs_stack (n : Nat) (s : State) : (s.storeRegs n).stack = s.stack := by rw [storeRegs_eq]

@[simp] theorem loadRegs_i (n : Nat) (s : State) : (s.loadRegs n).i = s.i := by rw [loadRegs_eq]
@[simp] theorem loadRegs_sp (n : Nat) (s : State) : (s.loadRegs n).sp = s.sp := by rw [loadRegs_eq]
@[simp] theorem loadRegs_stack (n : Nat) (s : State) : (s.loadRegs n).stack = s.stack := by rw [loadRegs_eq]

/-- RET changes pc and SP only (R130). -/
theorem eq_of_execRet (h : execRet s = .next t) : t = { s with pc := t.pc, sp := t.sp } := by
  rcases sp_cases s with h0 | ⟨k, hk, hsp⟩
  · rw [execRet_empty s h0] at h
    cases h; rfl
  · rw [execRet_live s hk hsp] at h
    cases h; rfl

/-- The call stack has a free cell or is full (R29). -/
theorem sp_free_or_full (s : State) : s.sp.val < 16 ∨ s.sp.val = 16 :=
  Nat.lt_or_eq_of_le (Nat.le_of_lt_succ s.sp.isLt)

/-- CALL changes pc, SP and the stack only (R132). -/
theorem eq_of_execCall {nnn : Addr} (h : execCall nnn s = .next t) :
    t = { s with pc := t.pc, sp := t.sp, stack := t.stack } := by
  rcases sp_free_or_full s with hsp | hsp
  · rw [execCall_free s nnn hsp] at h
    cases h; rfl
  · rw [execCall_full s nnn hsp] at h
    cases h; rfl

/-- CALL writes no cell below SP: the one it writes is the first free one (R28, R132). -/
theorem execCall_stack_below_sp {nnn : Addr} (h : execCall nnn s = .next t) {k : Fin 16} (hk : k.val < s.sp.val) :
    t.stack[k] = s.stack[k] := by
  rcases sp_free_or_full s with hsp | hsp
  · rw [execCall_free s nnn hsp] at h
    cases h
    exact Vector.getElem_set_ne hsp k.isLt (by omega)
  · rw [execCall_full s nnn hsp] at h
    cases h; rfl

/-- LD Vx, K changes Vx, pc and the reply only, whether it is held or not (R184, R108). -/
theorem eq_of_execLdVxK {x : Reg} (h : execLdVxK x s = .next t) :
    t = { s with v := s.v.set x (t.readV x), pc := t.pc, reply := t.reply } := by
  cases hk : s.input.keyWait with
  | none =>
    rw [execLdVxK_held s x hk] at h
    cases h
    simp [State.hold, State.setReply, State.readV]
  | some k =>
    rw [execLdVxK_key s x hk] at h
    cases h
    simp [State.pcNext, State.setPc, State.writeV, State.readV]

/-! ## I (R26) -/

/-- Settles O46: of all other instructions, RET, CALL and LD Vx, K have cases, and none of them writes I. -/
theorem onlyThreeInstructionsWriteI : Obligations.OnlyThreeInstructionsWriteI := by
  intro i s t h hLdI hAddI hLdF
  cases i with
  | ldI nnn => exact absurd rfl (hLdI nnn)
  | addI x => exact absurd rfl (hAddI x)
  | ldF x => exact absurd rfl (hLdF x)
  | ret => rw [eq_of_execRet h]
  | call nnn => rw [eq_of_execCall h]
  | ldVxK x => rw [eq_of_execLdVxK h]
  | _ => cases h; simp

/-! ## The call stack (R28, R136) -/

/-- Only CALL writes stack cells; RET keeps the popped one (D27). -/
theorem exec_stack {i : Instr} (h : exec i s = .next t) (hCall : ∀ nnn, i ≠ .call nnn) : t.stack = s.stack := by
  cases i with
  | call nnn => exact absurd rfl (hCall nnn)
  | ret => rw [eq_of_execRet h]
  | ldVxK x => rw [eq_of_execLdVxK h]
  | _ => cases h; simp

/-- Only CALL and RET move SP. -/
theorem exec_sp {i : Instr} (h : exec i s = .next t) (hCall : ∀ nnn, i ≠ .call nnn) (hRet : i ≠ .ret) :
    t.sp = s.sp := by
  cases i with
  | call nnn => exact absurd rfl (hCall nnn)
  | ret => exact absurd rfl hRet
  | ldVxK x => rw [eq_of_execLdVxK h]
  | _ => cases h; simp

/-- Nothing changes a live cell. -/
theorem exec_stack_below_sp {i : Instr} (h : exec i s = .next t) {k : Fin 16} (hk : k.val < s.sp.val) :
    t.stack[k] = s.stack[k] := by
  by_cases hCall : ∃ nnn, i = .call nnn
  · obtain ⟨nnn, rfl⟩ := hCall
    exact execCall_stack_below_sp h hk
  · rw [exec_stack h fun nnn e => hCall ⟨nnn, e⟩]

/-- Settles O48: the three clauses are the three lemmas above. -/
theorem stackIsPrivateToCallAndRet : Obligations.StackIsPrivateToCallAndRet :=
  fun _ _ _ h => ⟨exec_stack h, exec_sp h, fun _ hk => exec_stack_below_sp h hk⟩

/-! ## Registers (R22, R24) -/

/-- The registers a block load names are those up to x (R202). -/
theorem mem_destRegs_loadRegs {x z : Reg} : z ∈ destRegs (.loadRegs x) ↔ z.val < x.val + 1 := by
  simp only [destRegs, List.mem_map, List.mem_range]
  constructor
  · rintro ⟨k, hk, rfl⟩
    simp [Fin.ofNat]; omega
  · exact fun hz => ⟨z.val, hz, by simp⟩

/-- A flag write leaves 0 or 1 in VF (R24). -/
theorem readV_writeFlag_flagReg (s : State) (f : Bool) :
    (s.writeFlag f).readV flagReg = 0 ∨ (s.writeFlag f).readV flagReg = 1 := by
  rw [readV_writeFlag, if_pos rfl]
  cases f
  · exact .inl rfl
  · exact .inr rfl

/-- A register outside the listed ones is unchanged (R22). -/
theorem exec_readV {i : Instr} (h : exec i s = .next t) {z : Reg} (hz : z ∉ writtenRegs i) :
    t.readV z = s.readV z := by
  cases i with
  | ret => exact congrArg (·.readV z) (eq_of_execRet h)
  | call nnn => exact congrArg (·.readV z) (eq_of_execCall h)
  | ldVxK x =>
    have hzx : z ≠ x := by simpa [writtenRegs, writesFlag, destRegs] using hz
    exact (congrArg (·.readV z) (eq_of_execLdVxK h)).trans (readV_writeV_other s hzx _)
  | loadRegs x =>
    have hzx : ¬ z.val < x.val + 1 := fun hlt => hz (mem_destRegs_loadRegs.2 hlt)
    cases h
    rw [readV_pcNext, readV_loadRegs (by omega), if_neg hzx]
  | addReg x y | subReg x y | shl x y =>
    obtain ⟨hzf, hzx⟩ : z ≠ flagReg ∧ z ≠ x := by simpa [writtenRegs, writesFlag, destRegs] using hz
    cases h
    rw [readV_pcNext, readV_writeFlag, if_neg hzf, readV_writeV_other _ hzx]
  | addI x =>
    have hzf : z ≠ flagReg := by simpa [writtenRegs, writesFlag, destRegs] using hz
    cases h
    rw [readV_pcNext, readV_writeFlag, if_neg hzf, readV_setI]
  | ldImm x _ | addImm x _ | ldReg x _ | orReg x _ | andReg x _ | xorReg x _ | rnd x _ | ldVxDt x =>
    have hzx : z ≠ x := by simpa [writtenRegs, writesFlag, destRegs] using hz
    cases h
    rw [readV_pcNext, readV_writeV_other _ hzx]
  | _ => cases h; simp

/-- The four flag writers leave 0 or 1 in VF, because they write it last (R24, R25). -/
theorem exec_readV_flagReg {i : Instr} (h : exec i s = .next t) (hf : writesFlag i = true) :
    t.readV flagReg = 0 ∨ t.readV flagReg = 1 := by
  cases i with
  | addReg _ _ | subReg _ _ | shl _ _ | addI _ =>
    cases h
    rw [readV_pcNext]
    exact readV_writeFlag_flagReg _ _
  | _ => simp [writesFlag] at hf

/-- Settles O45: the destinations and the flag, each by its own lemma. -/
theorem registersChangeOnlyAsListed : Obligations.RegistersChangeOnlyAsListed :=
  fun _ _ _ h => ⟨fun _ hz => exec_readV h hz, exec_readV_flagReg h⟩

end Sys2Proof.Machine

/-! ## The environment's answers are read by four instructions only (R34, R35) -/

namespace Sys2Proof.Machine

/-- `s` with other answers listed for the coming requests (log 4). -/
def State.withInputs (s : State) (l : List StepInput) : State := { s with inputs := l }

variable {s t : State}

theorem pcSkipIf_withInputs (s : State) (l : List StepInput) (c : Bool) :
    (s.withInputs l).pcSkipIf c = (s.pcSkipIf c).withInputs l := by
  cases c <;> rfl

theorem storeRegs_withInputs (n : Nat) (s : State) (l : List StepInput) :
    (s.withInputs l).storeRegs n = (s.storeRegs n).withInputs l := by
  induction n with
  | zero => rfl
  | succ n ih => simp only [State.storeRegs, ih]; rfl

theorem loadRegs_withInputs (n : Nat) (s : State) (l : List StepInput) :
    (s.withInputs l).loadRegs n = (s.loadRegs n).withInputs l := by
  induction n with
  | zero => rfl
  | succ n ih => simp only [State.loadRegs, ih]; rfl

/-- Ending the step drops the first answer, whatever it was. -/
theorem endStep_withInputs_cons (s : State) (a : StepInput) (rest : List StepInput) :
    (s.withInputs (a :: rest)).endStep = s.endStep.withInputs rest := by
  by_cases hr : s.reply = .held
  · rw [endStep_of_held s hr]
    exact endStep_of_held (s.withInputs (a :: rest)) hr
  · rw [endStep_of_not_held s hr]
    exact endStep_of_not_held (s.withInputs (a :: rest)) hr

/-- Every instruction answers a next state (R102). -/
theorem exec_answers_next (i : Instr) (s : State) : ∃ t, exec i s = .next t := by
  cases i <;> exact ⟨_, rfl⟩

/-- An instruction that consults no answer does the same to every other piece of state, whatever the answers are. -/
theorem exec_withInputs {i : Instr} (hi : consultsEnvironment i = false) (h : exec i s = .next t)
    (l : List StepInput) : exec i (s.withInputs l) = .next (t.withInputs l) := by
  cases i with
  | rnd _ _ | skp _ | sknp _ | ldVxK _ => simp [consultsEnvironment] at hi
  | ret =>
    rcases sp_cases s with h0 | ⟨k, hk, hsp⟩
    · cases (execRet_empty s h0).symm.trans h
      exact execRet_empty _ h0
    · cases (execRet_live s hk hsp).symm.trans h
      exact execRet_live (s.withInputs l) hk hsp
  | call nnn =>
    rcases sp_free_or_full s with hsp | hsp
    · cases (execCall_free s nnn hsp).symm.trans h
      exact execCall_free (s.withInputs l) nnn hsp
    · cases (execCall_full s nnn hsp).symm.trans h
      exact execCall_full (s.withInputs l) nnn hsp
  | seImm _ _ | sneImm _ _ | seReg _ _ | sneReg _ _ =>
    cases h
    exact congrArg _ (pcSkipIf_withInputs s l _)
  | storeRegs x =>
    cases h
    rw [exec, execStoreRegs, storeRegs_withInputs]
    rfl
  | loadRegs x =>
    cases h
    rw [exec, execLoadRegs, loadRegs_withInputs]
    rfl
  | _ => cases h; rfl

/-- A step that consults no answer gives one result for every first answer. -/
theorem step_withInputs_cons (hi : consultsEnvironment s.instrAtPc = false) {u : State}
    (h : exec s.instrAtPc s.beginStep = .next u) (a : StepInput) (rest : List StepInput) :
    step (s.withInputs (a :: rest)) = .next (u.endStep.withInputs rest) :=
  (step_eq_next _).2
    ⟨u.withInputs (a :: rest), exec_withInputs hi h _, (endStep_withInputs_cons u a rest).symm⟩

/-- Settles O44: with either answer listed first, the step ends in the state of `step_withInputs_cons`. -/
theorem otherStepsIgnoreTheAnswers : Obligations.OtherStepsIgnoreTheAnswers := by
  intro s a b rest hi
  obtain ⟨u, h⟩ := exec_answers_next s.instrAtPc s.beginStep
  exact (step_withInputs_cons hi h a rest).trans (step_withInputs_cons hi h b rest).symm

end Sys2Proof.Machine

/-! ## No step reads the reply or a stack cell at or above SP (R28, R36) -/

namespace Sys2Proof.Machine

/-- `s` with another call stack. -/
def State.withStack (s : State) (stk : Vector Addr 16) : State := { s with stack := stk }

/-- `stk` holds the live cells of `s`, those below SP (R28). -/
def State.LiveCellsIn (s : State) (stk : Vector Addr 16) : Prop :=
  ∀ k : Fin 16, k.val < s.sp.val → stk[k] = s.stack[k]

variable {s t : State} {stk : Vector Addr 16}

theorem pcSkipIf_withStack (s : State) (stk : Vector Addr 16) (c : Bool) :
    (s.withStack stk).pcSkipIf c = (s.pcSkipIf c).withStack stk := by
  cases c <;> rfl

theorem storeRegs_withStack (n : Nat) (s : State) (stk : Vector Addr 16) :
    (s.withStack stk).storeRegs n = (s.storeRegs n).withStack stk := by
  induction n with
  | zero => rfl
  | succ n ih => simp only [State.storeRegs, ih]; rfl

theorem loadRegs_withStack (n : Nat) (s : State) (stk : Vector Addr 16) :
    (s.withStack stk).loadRegs n = (s.loadRegs n).withStack stk := by
  induction n with
  | zero => rfl
  | succ n ih => simp only [State.loadRegs, ih]; rfl

theorem endStep_withStack (s : State) (stk : Vector Addr 16) :
    (s.withStack stk).endStep = s.endStep.withStack stk := by
  by_cases hr : s.reply = .held
  · rw [endStep_of_held s hr]
    exact endStep_of_held (s.withStack stk) hr
  · rw [endStep_of_not_held s hr]
    exact endStep_of_not_held (s.withStack stk) hr

/-- An instruction other than CALL and RET neither reads nor writes the stack (R136). -/
theorem exec_withStack {i : Instr} (hCall : ∀ nnn, i ≠ .call nnn) (hRet : i ≠ .ret) (h : exec i s = .next t)
    (stk : Vector Addr 16) : exec i (s.withStack stk) = .next (t.withStack stk) := by
  cases i with
  | call nnn => exact absurd rfl (hCall nnn)
  | ret => exact absurd rfl hRet
  | seImm _ _ | sneImm _ _ | seReg _ _ | sneReg _ _ | skp _ | sknp _ =>
    cases h
    exact congrArg _ (pcSkipIf_withStack s stk _)
  | ldVxK x =>
    cases hk : s.input.keyWait with
    | none =>
      cases (execLdVxK_held s x hk).symm.trans h
      exact execLdVxK_held (s.withStack stk) x hk
    | some k =>
      cases (execLdVxK_key s x hk).symm.trans h
      exact execLdVxK_key (s.withStack stk) x hk
  | storeRegs x =>
    cases h
    rw [exec, execStoreRegs, storeRegs_withStack]
    rfl
  | loadRegs x =>
    cases h
    rw [exec, execLoadRegs, loadRegs_withStack]
    rfl
  | _ => cases h; rfl

/-- RET reads the newest live cell only. -/
theorem execRet_withStack (hl : s.LiveCellsIn stk) (h : execRet s = .next t) :
    execRet (s.withStack stk) = .next (t.withStack stk) ∧ t.LiveCellsIn stk := by
  rcases sp_cases s with h0 | ⟨k, hk, hsp⟩
  · cases (execRet_empty s h0).symm.trans h
    exact ⟨execRet_empty _ h0, hl⟩
  · cases (execRet_live s hk hsp).symm.trans h
    have hcell : stk[k] = s.stack[k] := hl ⟨k, hk⟩ (by simp [hsp])
    refine ⟨(execRet_live (s.withStack stk) hk hsp).trans ?_, fun j hj => hl j ?_⟩
    · simp only [State.withStack, hcell]
    · rw [hsp]; exact Nat.lt_succ_of_lt hj

/-- CALL overwrites the first free cell before it counts it. -/
theorem execCall_withStack {nnn : Addr} (hl : s.LiveCellsIn stk) (h : execCall nnn s = .next t) :
    ∃ stk', execCall nnn (s.withStack stk) = .next (t.withStack stk') ∧ t.LiveCellsIn stk' := by
  rcases sp_free_or_full s with hsp | hsp
  · cases (execCall_free s nnn hsp).symm.trans h
    refine ⟨stk.set s.sp.val (s.pc + 2) hsp, execCall_free (s.withStack stk) nnn hsp, fun j hj => ?_⟩
    rcases Nat.lt_succ_iff_lt_or_eq.1 hj with hlt | heq
    · simpa [Vector.getElem_set, Nat.ne_of_gt hlt] using hl j hlt
    · simp [heq]
  · cases (execCall_full s nnn hsp).symm.trans h
    exact ⟨stk, execCall_full (s.withStack stk) nnn hsp, hl⟩

/-- An instruction run on other stale cells gives a state that differs in stale cells only. -/
theorem exec_live_cells {i : Instr} (hl : s.LiveCellsIn stk) (h : exec i s = .next t) :
    ∃ stk', exec i (s.withStack stk) = .next (t.withStack stk') ∧ t.LiveCellsIn stk' := by
  by_cases hCall : ∃ nnn, i = .call nnn
  · obtain ⟨nnn, rfl⟩ := hCall
    exact execCall_withStack hl h
  · have hCall' : ∀ nnn, i ≠ .call nnn := fun nnn e => hCall ⟨nnn, e⟩
    by_cases hRet : i = .ret
    · subst hRet
      exact ⟨stk, execRet_withStack hl h⟩
    · refine ⟨stk, exec_withStack hCall' hRet h stk, fun k hk => ?_⟩
      rw [exec_stack h hCall']
      exact hl k (exec_sp h hCall' hRet ▸ hk)

/-- States that agree in all but the reply and the stack, with canonical memories, begin a step alike. -/
theorem beginStep_eq_withStack {s s' : State} (hm : s.mem.wf = true) (hm' : s'.mem.wf = true)
    (h : ∀ p : Part, p ≠ .reply → (∀ k, p ≠ .stack k) → p.same s s') :
    s'.beginStep = s.beginStep.withStack s'.stack := by
  have hv : s'.v = s.v := Vector.ext fun k hk => h (.v ⟨k, hk⟩) nofun nofun
  have hmem : s'.mem = s.mem := mem_ext hm' hm fun a => h (.mem a) nofun nofun
  simp only [State.beginStep, State.setDc, State.setReply, State.withStack, State.mk.injEq]
  exact ⟨hv, h .i nofun nofun, h .pc nofun nofun, h .sp nofun nofun, trivial, h .dt nofun nofun, h .st nofun nofun,
    hmem, trivial, h .inputs nofun nofun, h .requests nofun nofun, h .params nofun nofun, h .started nofun nofun⟩

/-- A state with other stale cells is the same in every other piece. -/
theorem same_withStack (hl : s.LiveCellsIn stk) {p : Part} (hp : ∀ k, p = .stack k → k.val < s.sp.val) :
    p.same s (s.withStack stk) := by
  cases p with
  | stack k => exact hl k (hp k rfl)
  | _ => rfl

/-- Settles O43: the step overwrites the reply first, and `exec_live_cells` carries the stale cells along. -/
theorem staleCellsAndRepliesAreUnobservable : Obligations.StaleCellsAndRepliesAreUnobservable := by
  intro s s' t t' hm hm' hsame hstep hstep' p hp
  have hbegin : s'.beginStep = s.beginStep.withStack s'.stack :=
    beginStep_eq_withStack hm hm' fun q hr hs => hsame q hr fun k e => absurd e (hs k)
  have hlive : s.beginStep.LiveCellsIn s'.stack := fun k hk =>
    hsame (.stack k) nofun fun j e => Part.stack.inj e ▸ hk
  have hinstr : s'.instrAtPc = s.instrAtPc :=
    instrAtPc_congr s (hsame .pc nofun nofun) fun a => hsame (.mem a) nofun nofun
  obtain ⟨u, hu, rfl⟩ := (step_eq_next s).1 hstep
  obtain ⟨u', hu', rfl⟩ := (step_eq_next s').1 hstep'
  obtain ⟨stk, hstk, hl⟩ := exec_live_cells hlive hu
  rw [hinstr, hbegin, hstk] at hu'
  cases hu'
  rw [endStep_withStack]
  refine same_withStack (fun k hk => ?_) hp
  rw [endStep_stack]
  exact hl k (endStep_sp u ▸ hk)

end Sys2Proof.Machine

/-! # Memory: what stores and fetches see, and what every step keeps (spec/20_memory.md)

## Effective addresses and fetches (R54, R55) -/

namespace Sys2Proof.Machine

/-- Settles O27: an effective address is the sum modulo 4096, and 16 consecutive ones do not meet. -/
theorem effectiveAddressesWrapAndAreDistinct : Obligations.EffectiveAddressesWrapAndAreDistinct :=
  fun s => ⟨ea_toNat s, fun _ _ hj hk => ea_inj s (by omega) (by omega)⟩

/-- The byte at the lower address is the high half of the word (R54). -/
theorem wordOfBytes_toNat (hi lo : Byte) : (wordOfBytes hi lo).toNat = 256 * hi.toNat + lo.toNat :=
  (append_toNat hi lo).trans (by omega)

/-- The 12-bit successor is the sum modulo 4096: after 0xFFF comes 0x000 (R56). -/
theorem addr_add_one (a : Addr) : a + 1 = BitVec.ofNat 12 ((a.toNat + 1) % 4096) := by
  apply BitVec.eq_of_toNat_eq
  simp [BitVec.toNat_add]

/-- Settles O28: the second byte's address is the 12-bit sum, which wraps. -/
theorem fetchIsBigEndianAndWraps : Obligations.FetchIsBigEndianAndWraps := by
  intro s a
  rw [State.fetch16, wordOfBytes_toNat, addr_add_one]

/-! ## Sequences of stores (R61) -/

/-- Any list of stores keeps the canonical form. -/
theorem foldl_writeMem_wf {s : State} (h : s.mem.wf = true) (ws : List (Addr × Byte)) :
    (ws.foldl (fun u w => u.writeMem w.1 w.2) s).mem.wf = true := by
  induction ws generalizing s with
  | nil => exact h
  | cons w ws ih => exact ih (writeMem_wf h w.1 w.2)

/-- Settles O29, by induction on the list from its end: the last store either hits the address or is passed over. -/
theorem readsSeeTheMostRecentStore : Obligations.ReadsSeeTheMostRecentStore := by
  intro s ws a h
  induction ws using List.reverseRecOn with
  | nil => rfl
  | append_singleton ws w ih =>
    rw [List.foldl_append, List.foldl_cons, List.foldl_nil, readMem_writeMem (foldl_writeMem_wf h ws),
      List.reverse_concat]
    by_cases hw : a = w.1
    · subst hw
      rw [if_pos rfl, List.find?_cons_of_pos (by simp)]
    · rw [if_neg hw, ih, List.find?_cons_of_neg (by simpa using Ne.symm hw)]

/-! ## Which instructions store (R51) -/

variable {s t : State}

@[simp] theorem pcSkipIf_mem (s : State) (c : Bool) : (s.pcSkipIf c).mem = s.mem := by rw [pcSkipIf_eq, setPc_mem]
@[simp] theorem loadRegs_mem (n : Nat) (s : State) : (s.loadRegs n).mem = s.mem := by rw [loadRegs_eq]

/-- Every instruction but LD B, Vx and LD [I], Vx leaves memory as it is. -/
theorem exec_mem {i : Instr} (h : exec i s = .next t) (hB : ∀ x, i ≠ .ldB x) (hS : ∀ x, i ≠ .storeRegs x) :
    t.mem = s.mem := by
  cases i with
  | ldB x => exact absurd rfl (hB x)
  | storeRegs x => exact absurd rfl (hS x)
  | ret => rw [eq_of_execRet h]
  | call nnn => rw [eq_of_execCall h]
  | ldVxK x => rw [eq_of_execLdVxK h]
  | _ => cases h; simp

/-- Settles O47: a byte is read from memory alone. -/
theorem onlyTwoInstructionsStore : Obligations.OnlyTwoInstructionsStore := by
  intro i s t h hB hS a
  rw [State.readMem, exec_mem h hB hS, State.readMem]

/-- Every instruction keeps the canonical form: the two that store do it by `writeMem` (R53). -/
theorem exec_mem_wf {i : Instr} (h : exec i s = .next t) (hs : s.mem.wf = true) : t.mem.wf = true := by
  cases i with
  | ldB x =>
    cases h
    exact writeMem_wf (writeMem_wf (writeMem_wf hs _ _) _ _) _ _
  | storeRegs x =>
    cases h
    exact storeRegs_wf hs _
  | _ =>
    rw [exec_mem h nofun nofun]
    exact hs

/-! ## Code that has just been stored (R63, D29) -/

@[simp] theorem fetch16_endStep (s : State) (a : Addr) : s.endStep.fetch16 a = s.fetch16 a := by
  simp only [State.fetch16, readMem_endStep]

@[simp] theorem storeRegs_pc (n : Nat) (s : State) : (s.storeRegs n).pc = s.pc := by rw [storeRegs_eq]

/-- After a block store of at least two registers, the word at I is V0, V1 (R54, R201). -/
theorem fetch16_storeRegs_i (h : s.mem.wf = true) {n : Nat} (h2 : 2 ≤ n) (hn : n ≤ 16) :
    (s.storeRegs n).fetch16 s.i = wordOfBytes (s.readV 0) (s.readV 1) := by
  have h0 : s.ea 0 = s.i := BitVec.add_zero s.i
  have hhi : (s.storeRegs n).readMem s.i = s.readV 0 := h0 ▸ readMem_storeRegs_ea h hn (by omega)
  have hlo : (s.storeRegs n).readMem (s.i + 1) = s.readV 1 := readMem_storeRegs_ea h hn (k := 1) (by omega)
  rw [State.fetch16, hhi, hlo]

/-- Settles O30: the next pc is I, and the word fetched there is the one just stored. -/
theorem storedCodeRunsInTheNextStep : Obligations.StoredCodeRunsInTheNextStep := by
  intro s x hm hi hx hI
  have hpc : (s.beginStep.storeRegs (x.val + 1)).pcNext.endStep.pc = s.i := by simp [hI]
  have hnext : (s.beginStep.storeRegs (x.val + 1)).pcNext.endStep.instrAtPc =
      decode (wordOfBytes (s.readV 0) (s.readV 1)) := by
    rw [State.instrAtPc, hpc, fetch16_endStep, fetch16_pcNext]
    exact congrArg decode (fetch16_storeRegs_i (s := s.beginStep) hm (by omega) (by omega))
  exact ⟨_, step_of_instr s hi, hpc, hnext, step_of_instr _ hnext⟩

/-! ## What the driver is given (R121, R122) -/

/-- A row has each pixel once. -/
theorem rowPixels_nodup (px py : Nat) (b : Byte) : (rowPixels px py b).Nodup := by
  refine List.nodup_range.filterMap fun j k p hj hk => ?_
  simp only [Option.mem_def, Option.ite_none_right_eq_some, Option.some.injEq] at hj hk
  obtain ⟨-, rfl⟩ := hj
  simpa using (congrArg Pixel.px hk.2).symm

/-- A row has at most its eight bits. -/
theorem rowPixels_length_le (px py : Nat) (b : Byte) : (rowPixels px py b).length ≤ 8 :=
  (List.length_filterMap_le _ _).trans_eq List.length_range

/-- A sprite has each pixel once: its rows have different y coordinates. -/
theorem spritePixels_nodup (s : State) (x y : Reg) (n : Nat) : (s.spritePixels x y n).Nodup := by
  refine List.nodup_flatMap.2
    ⟨fun r _ => rowPixels_nodup _ _ _, List.nodup_range.imp fun {r r'} hne p hr hr' => hne ?_⟩
  obtain ⟨k, -, -, rfl⟩ := mem_rowPixels.1 hr
  obtain ⟨k', -, -, e⟩ := mem_rowPixels.1 hr'
  simpa using congrArg Pixel.py e

theorem spritePixels_length_le (s : State) (x y : Reg) (n : Nat) : (s.spritePixels x y n).length ≤ 8 * n := by
  induction n with
  | zero => exact Nat.le_refl 0
  | succ n ih =>
    have hrow := rowPixels_length_le (s.readV x).toNat ((s.readV y).toNat + n) (s.readMem (s.ea n))
    rw [State.spritePixels, List.range_succ, List.flatMap_append, List.length_append, List.flatMap_singleton]
    exact Nat.add_le_add ih hrow

/-- A draw of at most 15 rows is legal. -/
theorem toggle_spritePixels_legal (s : State) (x y : Reg) {n : Nat} (hn : n ≤ 15) :
    (DisplayChange.toggle (s.spritePixels x y n)).legal := by
  refine ⟨spritePixels_nodup s x y n, (spritePixels_length_le s x y n).trans (by omega), fun p hp => ?_⟩
  obtain ⟨r, k, hr, hk, -, rfl⟩ := mem_spritePixels.1 hp
  have := (s.readV x).isLt
  have := (s.readV y).isLt
  exact ⟨by dsimp only; omega, by dsimp only; omega⟩

@[simp] theorem pcSkipIf_reply (s : State) (c : Bool) : (s.pcSkipIf c).reply = s.reply := by
  rw [pcSkipIf_eq, setPc_reply]
@[simp] theorem storeRegs_reply (n : Nat) (s : State) : (s.storeRegs n).reply = s.reply := by rw [storeRegs_eq]
@[simp] theorem loadRegs_reply (n : Nat) (s : State) : (s.loadRegs n).reply = s.reply := by rw [loadRegs_eq]

/-- LD Vx, K is held or leaves the reply as it is (R108, R184). -/
theorem execLdVxK_reply {x : Reg} (h : execLdVxK x s = .next t) : t.reply = .held ∨ t.reply = s.reply := by
  cases hk : s.input.keyWait with
  | none =>
    cases (execLdVxK_held s x hk).symm.trans h
    exact .inl rfl
  | some k =>
    cases (execLdVxK_key s x hk).symm.trans h
    exact .inr rfl

/-- Every instruction but CLS, DRW and LD Vx, K leaves the reply as it is (R107). -/
theorem exec_reply {i : Instr} (h : exec i s = .next t) (hCls : i ≠ .cls) (hDrw : ∀ x y n, i ≠ .drw x y n)
    (hK : ∀ x, i ≠ .ldVxK x) : t.reply = s.reply := by
  cases i with
  | cls => exact absurd rfl hCls
  | drw x y n => exact absurd rfl (hDrw x y n)
  | ldVxK x => exact absurd rfl (hK x)
  | ret => rw [eq_of_execRet h]
  | call nnn => rw [eq_of_execCall h]
  | _ => cases h; simp

/-- Every instruction keeps a legal reply, the pixels of a draw included. -/
theorem exec_reply_legal {i : Instr} (h : exec i s = .next t) (hs : s.reply.legal) : t.reply.legal := by
  cases i with
  | cls => cases h; trivial
  | drw x y n => cases h; exact toggle_spritePixels_legal s x y (by omega)
  | ldVxK x =>
    rcases execLdVxK_reply h with hr | hr
    · rw [hr]; trivial
    · rw [hr]; exact hs
  | _ => rw [exec_reply h nofun nofun nofun]; exact hs

/-! ## The invariant (R50, R53, R122) -/

/-- Every instruction keeps the invariant. -/
theorem exec_inv {i : Instr} (h : exec i s = .next t) (hs : s.Inv) : t.Inv := by
  obtain ⟨hmem, hreply⟩ := hs
  exact ⟨exec_mem_wf h hmem, exec_reply_legal h hreply⟩

theorem beginStep_inv (hs : s.Inv) : s.beginStep.Inv := ⟨hs.1, trivial⟩

theorem endStep_inv (hs : s.Inv) : s.endStep.Inv := by
  rw [State.Inv, endStep_mem, endStep_reply]
  exact hs

/-- Settles O59: each of the three parts of a step keeps the invariant (R101). -/
theorem everyStepKeepsTheInvariant : Obligations.EveryStepKeepsTheInvariant := by
  intro s t hs h
  obtain ⟨u, hu, rfl⟩ := (step_eq_next s).1 h
  exact endStep_inv (exec_inv hu (beginStep_inv hs))

end Sys2Proof.Machine

/-! # Encoding: the map, the dispatch and the encoder (spec/30_encoding.md)

Encoding is undone by the map (`decode_encode`) and by the dispatch (`decodeByFamily_encode`), and both give
back only words they recognise by encoding; so the two decoders are one function.

## Fields as masks (R82) -/

namespace Sys2Proof

/-- A mask of `l` ones from bit `s` up, then the shift, is a quotient and a remainder. -/
theorem and_mask_shiftRight (n s l : Nat) : (n &&& (2 ^ l - 1) <<< s) >>> s = n / 2 ^ s % 2 ^ l := by
  rw [Nat.shiftRight_and_distrib, Nat.shiftLeft_shiftRight, Nat.and_two_pow_sub_one_eq_mod, Nat.shiftRight_eq_div_pow]

/-- Settles O31: as numbers, the fields and the shifted masks are the same quotients and remainders. -/
theorem fieldsAreMaskedThenShifted : Obligations.FieldsAreMaskedThenShifted := by
  intro w
  have hf : w.toNat / 4096 = w.toNat / 4096 % 16 := by omega
  exact ⟨(fieldF_toNat w).trans (hf.trans (and_mask_shiftRight _ 12 4).symm),
    (fieldX_val w).trans (and_mask_shiftRight _ 8 4).symm,
    (fieldY_val w).trans (and_mask_shiftRight _ 4 4).symm,
    (fieldNNN_toNat w).trans (Nat.and_two_pow_sub_one_eq_mod _ 12).symm,
    (fieldNN_toNat w).trans (Nat.and_two_pow_sub_one_eq_mod _ 8).symm,
    (fieldN_val w).trans (Nat.and_two_pow_sub_one_eq_mod _ 4).symm⟩

/-! ## Rows exclude each other (R85) -/

/-- Two rows whose patterns differ on a bit that both masks cover accept no word in common. -/
theorem not_accepts_both {r q : OpRow} (h : r.pattern &&& q.mask ≠ q.pattern &&& r.mask) (w : Word) :
    ¬(r.accepts w = true ∧ q.accepts w = true) := by
  rintro ⟨hr, hq⟩
  have hr : w &&& r.mask = r.pattern := eq_of_beq hr
  have hq : w &&& q.mask = q.pattern := eq_of_beq hq
  rw [← hr, ← hq] at h
  exact h (by ac_rfl)

/-- Settles O32: any two rows of the map have such a bit. -/
theorem opcodeRowsAreDisjoint : Obligations.OpcodeRowsAreDisjoint := by
  have hbit : opmap.Pairwise fun r q => r.pattern &&& q.mask ≠ q.pattern &&& r.mask := by decide
  exact hbit.imp not_accepts_both

/-! ## The fields of an encoded word (R81, R82) -/

@[simp] theorem toFin_nibble (x : Fin 16) : (nibble x).toFin = x := rfl
@[simp] theorem toNat_nibble (x : Fin 16) : (nibble x).toNat = x.val := rfl

section
variable (f n : BitVec 4) (x y : Reg) (nn : Byte) (nnn : Addr)

@[simp] theorem fieldF_formatA : fieldF (formatA f nnn) = f := by
  apply BitVec.eq_of_toNat_eq
  rw [fieldF_toNat, formatA_toNat]
  omega

@[simp] theorem fieldNNN_formatA : fieldNNN (formatA f nnn) = nnn := by
  apply BitVec.eq_of_toNat_eq
  rw [fieldNNN_toNat, formatA_toNat]
  omega

@[simp] theorem fieldF_formatRI : fieldF (formatRI f x nn) = f := by
  apply BitVec.eq_of_toNat_eq
  rw [fieldF_toNat, formatRI_toNat]
  omega

@[simp] theorem fieldX_formatRI : fieldX (formatRI f x nn) = x := by
  apply Fin.ext
  rw [fieldX_val, formatRI_toNat]
  omega

@[simp] theorem fieldNN_formatRI : fieldNN (formatRI f x nn) = nn := by
  apply BitVec.eq_of_toNat_eq
  rw [fieldNN_toNat, formatRI_toNat]
  omega

@[simp] theorem fieldF_formatRRN : fieldF (formatRRN f x y n) = f := by
  apply BitVec.eq_of_toNat_eq
  rw [fieldF_toNat, formatRRN_toNat]
  omega

@[simp] theorem fieldX_formatRRN : fieldX (formatRRN f x y n) = x := by
  apply Fin.ext
  rw [fieldX_val, formatRRN_toNat]
  omega

@[simp] theorem fieldY_formatRRN : fieldY (formatRRN f x y n) = y := by
  apply Fin.ext
  rw [fieldY_val, formatRRN_toNat]
  omega

@[simp] theorem fieldN_formatRRN : fieldN (formatRRN f x y n) = n.toFin := by
  apply Fin.ext
  rw [fieldN_val, formatRRN_toNat]
  show _ = n.toNat
  omega

end

/-! ## When a word is made of its own fields -/

section
variable (w : Word) (f n : BitVec 4) (nn : Byte)

theorem formatA_fieldNNN_eq_iff : formatA f (fieldNNN w) = w ↔ w.toNat / 4096 * 4096 = f.toNat * 4096 := by
  rw [← BitVec.toNat_inj, formatA_toNat, fieldNNN_toNat]
  omega

theorem formatRI_fieldX_eq_iff :
    formatRI f (fieldX w) nn = w ↔ w.toNat / 4096 * 4096 + w.toNat % 256 = f.toNat * 4096 + nn.toNat := by
  rw [← BitVec.toNat_inj, formatRI_toNat, fieldX_val]
  omega

theorem formatRRN_fieldX_fieldY_eq_iff :
    formatRRN f (fieldX w) (fieldY w) n = w ↔ w.toNat / 4096 * 4096 + w.toNat % 16 = f.toNat * 4096 + n.toNat := by
  rw [← BitVec.toNat_inj, formatRRN_toNat, fieldX_val, fieldY_val]
  omega

end

/-! ## The dispatch and the encoder (R84) -/

/-- The dispatch reads back every instruction from its word. -/
theorem decodeByFamily_encode (i : Instr) : decodeByFamily (encode i) = i := by
  cases i with
  | cls | ret | unrecognized => rfl
  | _ => simp [encode, decodeByFamily, dispatch8, dispatchF]

/-- No two instructions have the same word. -/
theorem encode_injective {i j : Instr} (h : encode i = encode j) : i = j :=
  Function.LeftInverse.injective decodeByFamily_encode h

theorem encode_dispatch8 {w : Word} (hf : w.toNat / 4096 = 0x8) (h : dispatch8 w ≠ .unrecognized) :
    encode (dispatch8 w) = w := by
  rw [dispatch8, fieldN_val] at h ⊢
  split at h <;> simp_all [encode, formatRRN_fieldX_fieldY_eq_iff]

theorem encode_dispatchF {w : Word} (hf : w.toNat / 4096 = 0xF) (h : dispatchF w ≠ .unrecognized) :
    encode (dispatchF w) = w := by
  rw [dispatchF, fieldNN_toNat] at h ⊢
  split at h <;> simp_all [encode, formatRI_fieldX_eq_iff]

/-- In family 0 the address field is the whole word. -/
theorem eq_of_fieldNNN_eq {w : Word} {nnn : Addr} (hf : w.toNat / 4096 = 0x0) (h : fieldNNN w = nnn) :
    formatA 0x0 nnn = w := by
  rw [← h, formatA_fieldNNN_eq_iff, hf]
  rfl

/-- A word that the dispatch recognises is the encoding of what it gives. -/
theorem encode_decodeByFamily {w : Word} (h : decodeByFamily w ≠ .unrecognized) : encode (decodeByFamily w) = w := by
  have hlt : w.toNat / 4096 < 16 := by omega
  rw [decodeByFamily, fieldF_toNat] at h ⊢
  match hf : w.toNat / 4096, hlt, h with
  | 0x0, _, h =>
    simp only at h ⊢
    split_ifs at h ⊢ with h0 h1
    · exact eq_of_fieldNNN_eq hf h0
    · exact eq_of_fieldNNN_eq hf h1
    · exact absurd rfl h
  | 0x5, _, h | 0x9, _, h =>
    simp only at h ⊢
    split_ifs at h ⊢ with h0
    · simp [encode, formatRRN_fieldX_fieldY_eq_iff, hf, ← fieldN_val, h0]
    · exact absurd rfl h
  | 0x8, _, h => exact encode_dispatch8 hf h
  | 0xE, _, h =>
    simp only at h ⊢
    split_ifs at h ⊢ with h0 h1
    · simp [encode, formatRI_fieldX_eq_iff, hf, ← fieldNN_toNat, h0]
    · simp [encode, formatRI_fieldX_eq_iff, hf, ← fieldNN_toNat, h1]
    · exact absurd rfl h
  | 0xF, _, h => exact encode_dispatchF hf h
  | 0xD, _, _ => simp [encode, formatRRN_fieldX_fieldY_eq_iff, hf, fieldN_val]
  | 0x1, _, _ | 0x2, _, _ | 0xA, _, _ | 0xB, _, _ => simp [encode, formatA_fieldNNN_eq_iff, hf]
  | 0x3, _, _ | 0x4, _, _ | 0x6, _, _ | 0x7, _, _ | 0xC, _, _ => simp [encode, formatRI_fieldX_eq_iff, hf, fieldNN_toNat]
  | _ + 16, hlt, _ => omega

/-! ## The map and the encoder (R85, R86, R88) -/

/-- What the decoder can do: build with a row that accepts the word, or find that no row does. -/
theorem decode_cases (w : Word) :
    (∃ r ∈ opmap, r.accepts w = true ∧ decode w = r.build w) ∨
    ((∀ r ∈ opmap, ¬r.accepts w = true) ∧ decode w = .unrecognized) := by
  unfold decode
  cases h : opmap.find? fun r => r.accepts w with
  | some r => exact .inl ⟨r, List.mem_of_find?_eq_some h, List.find?_some (p := fun r : OpRow => r.accepts w) h, rfl⟩
  | none => exact .inr ⟨List.find?_eq_none.1 h, rfl⟩

/-- A row of the map accepts exactly the words that are the encodings of what it builds from them. -/
theorem accepts_iff_encode_build (w : Word) : ∀ r ∈ opmap, r.accepts w = true ↔ encode (r.build w) = w := by
  simp only [opmap, opmapLow, opmapMid, opmapHigh, List.cons_append, List.nil_append, List.forall_mem_cons,
    accepts_word, accepts_family, accepts_family_n, accepts_family_nn, decide_eq_true_eq, encode,
    formatA_fieldNNN_eq_iff, formatRI_fieldX_eq_iff, formatRRN_fieldX_fieldY_eq_iff, fieldNN_toNat, fieldN_val,
    toNat_nibble, BitVec.toNat_inj, eq_comm (a := w)]
  simp

/-- Every instruction has a row that builds it from its own word. -/
theorem exists_row_build_encode {i : Instr} (h : i ≠ .unrecognized) : ∃ r ∈ opmap, r.build (encode i) = i := by
  cases i with
  | unrecognized => exact absurd rfl h
  | _ => simp [opmap, opmapLow, opmapMid, opmapHigh, encode]

/-- The decoder reads back every instruction from its word: only the instruction itself has that word. -/
theorem decode_encode (i : Instr) : decode (encode i) = i := by
  obtain ⟨q, hq, hacc, hdec⟩ | ⟨hnone, hdec⟩ := decode_cases (encode i)
  · exact hdec.trans (encode_injective ((accepts_iff_encode_build _ q hq).1 hacc))
  · by_contra hne
    obtain ⟨r, hr, hb⟩ := exists_row_build_encode fun hi => hne (hdec.trans hi.symm)
    exact hnone r hr ((accepts_iff_encode_build _ r hr).2 (congrArg encode hb))

theorem wordOfBytes_hiByte_loByte (w : Word) : wordOfBytes (hiByte w) (loByte w) = w :=
  (BitVec.extractLsb'_append_extractLsb'_eq_extractLsb' (start₁ := 0) (len₁ := 8) (len₂ := 8) rfl).trans
    BitVec.extractLsb'_eq_self

/-- Settles O36: the two bytes put the word together again, and the operands fit by their types. -/
theorem decodeOfEncodeGivesInstructionBack : Obligations.DecodeOfEncodeGivesInstructionBack := by
  intro i rest _
  have hdec : decode (wordOfBytes (hiByte (encode i)) (loByte (encode i))) = i := by
    rw [wordOfBytes_hiByte_loByte, decode_encode]
  exact congrArg (fun j => Except.ok (j, rest)) hdec

/-- Settles O37: the row that accepts a recognised word builds an instruction whose encoding is the word. -/
theorem encodeOfDecodeGivesWordBack : Obligations.EncodeOfDecodeGivesWordBack := by
  intro w hw
  obtain ⟨r, hr, hacc, hdec⟩ | ⟨-, hdec⟩ := decode_cases w
  · rw [hdec]
    exact (accepts_iff_encode_build w r hr).1 hacc
  · exact absurd hdec hw

/-! ## The two decoders are one, and what they leave over (R84, R88, R89) -/

/-- Settles O33: what either decoder recognises in a word encodes to that word, so the other reads it back. -/
theorem decoderFollowsDispatchOrder : Obligations.DecoderFollowsDispatchOrder := by
  intro w
  by_cases hd : decode w = .unrecognized
  · by_contra hne
    have hword : encode (decodeByFamily w) = w := encode_decodeByFamily fun hf => hne (hd.trans hf.symm)
    exact hne ((congrArg decode hword).symm.trans (decode_encode _))
  · have hword : encode (decode w) = w := encodeOfDecodeGivesWordBack w hd
    exact (decodeByFamily_encode _).symm.trans (congrArg decodeByFamily hword)

theorem dispatch8_eq_unrecognized_iff (w : Word) :
    dispatch8 w = .unrecognized ↔ w.toNat % 16 ∈ [0x6, 0x7, 0x8, 0x9, 0xA, 0xB, 0xC, 0xD, 0xF] := by
  have hlt : w.toNat % 16 < 16 := by omega
  rw [dispatch8, fieldN_val]
  interval_cases w.toNat % 16 <;> simp

theorem dispatchF_eq_unrecognized_iff (w : Word) :
    dispatchF w = .unrecognized ↔ w.toNat % 256 ∉ [0x07, 0x0A, 0x15, 0x18, 0x1E, 0x29, 0x33, 0x55, 0x65] := by
  rw [dispatchF, fieldNN_toNat]
  split <;> simp_all

/-- Settles O34: of each family, what the dispatch leaves over. -/
theorem unrecognizedWordsExactly : Obligations.UnrecognizedWordsExactly := by
  intro w
  have hlt : w.toNat / 4096 < 16 := by omega
  rw [decoderFollowsDispatchOrder, decodeByFamily, fieldF_toNat]
  match w.toNat / 4096, hlt with
  | 0x8, _ => simp [dispatch8_eq_unrecognized_iff]
  | 0xF, _ => simp [dispatchF_eq_unrecognized_iff]
  | 0x0, _ => simp [ite_eq_iff, ← BitVec.toNat_inj, fieldNNN_toNat]
  | 0x5, _ | 0x9, _ => simp [Fin.ext_iff, fieldN_val]
  | 0xE, _ => simp [ite_eq_iff, ← BitVec.toNat_inj, fieldNN_toNat]
  | 0x1, _ | 0x2, _ | 0x3, _ | 0x4, _ | 0x6, _ | 0x7, _ | 0xA, _ | 0xB, _ | 0xC, _ | 0xD, _ => simp
  | _ + 16, hlt => omega

/-- Settles O35: eight of the words are encodings, and 8AB6 is of family 8 with n = 6. -/
theorem sampleWordsDecodeAsWritten : Obligations.SampleWordsDecodeAsWritten :=
  ⟨decode_encode (.ldI 0x200), decode_encode (.drw 0 0 1), decode_encode (.addReg 0xA 0xB),
    decode_encode (.seImm 0xC 0x7F), decode_encode (.ldB 5), (unrecognizedWordsExactly _).2 (by decide),
    decode_encode .ret, decode_encode (.sknp 2), decode_encode (.rnd 3 0x0F)⟩

end Sys2Proof

/-! # The step (spec/40_step_cycle.md)

Every step answers a next state (R102), and it is `exec` between the two halves of the frame (`step_eq_next`).
What a step does to a timer, to pc and to the reply follows from what `exec` and the second half do to it.

## The two halves of the frame (R101, R105, R108) -/

namespace Sys2Proof.Machine

variable {s t u : State}

/-- The end of a step counts DT, unless the step was held. -/
theorem endStep_dt_toNat (s : State) :
    s.endStep.dt.toNat = if s.reply = .held then s.dt.toNat else s.dt.toNat - 1 := by
  by_cases hr : s.reply = .held
  · rw [endStep_of_held s hr, if_pos hr, endRequest_dt]
  · rw [endStep_of_not_held s hr, if_neg hr, endRequest_dt, tickTimers_dt, countDown_toNat]

/-- The end of a step counts ST, unless the step was held. -/
theorem endStep_st_toNat (s : State) :
    s.endStep.st.toNat = if s.reply = .held then s.st.toNat else s.st.toNat - 1 := by
  by_cases hr : s.reply = .held
  · rw [endStep_of_held s hr, if_pos hr, endRequest_st]
  · rw [endStep_of_not_held s hr, if_neg hr, endRequest_st, tickTimers_st, countDown_toNat]

theorem beginStep_changesOnly (s : State) : ChangesOnly s s.beginStep [.reply] := by
  intro p hp
  cases p with
  | reply => simp at hp
  | _ => rfl

theorem endStep_changesOnly (s : State) : ChangesOnly s s.endStep [.dt, .st, .inputs, .requests] := by
  intro p hp
  cases p with
  | dt | st | inputs | requests => simp at hp
  | _ => simp [Part.same]

/-- A step whose instruction completes counts the timers and ends the request. -/
theorem step_of_completed {i : Instr} (hi : s.instrAtPc = i) (hu : exec i s.beginStep = .next u)
    (hr : u.reply ≠ .held) : step s = .next u.tickTimers.endRequest := by
  subst hi
  exact (step_eq_next s).2 ⟨u, hu, (endStep_of_not_held u hr).symm⟩

/-- A step whose instruction is held only ends the request. -/
theorem step_of_held {i : Instr} (hi : s.instrAtPc = i) (hu : exec i s.beginStep = .next u)
    (hr : u.reply = .held) : step s = .next u.endRequest := by
  subst hi
  exact (step_eq_next s).2 ⟨u, hu, (endStep_of_held u hr).symm⟩

/-- The decoder of bytes reads the word that is fetched (R54, R80). -/
theorem decodeBytes_readMem (s : State) (a : Addr) :
    decodeBytes [s.readMem a, s.readMem (a + 1)] = .ok (decode (s.fetch16 a), []) := rfl

/-- Settles O38: `b`, `t` and `u` are the state before, after `exec`, and after the end of the step. -/
theorem stepRunsTheInstructionAtPc : Obligations.StepRunsTheInstructionAtPc := by
  intro s i hdec
  cases (decodeBytes_readMem s s.pc).symm.trans hdec
  obtain ⟨t, ht⟩ := exec_answers_next s.instrAtPc s.beginStep
  exact ⟨s.beginStep, t, t.endStep, rfl, beginStep_changesOnly s, ht, (step_eq_next s).2 ⟨t, ht, rfl⟩,
    endStep_dt_toNat t, endStep_st_toNat t, endStep_inputs t, endStep_requests t, endStep_changesOnly t⟩

theorem step_answers_next (s : State) : ∃ t, step s = .next t := by
  obtain ⟨u, hu⟩ := exec_answers_next s.instrAtPc s.beginStep
  exact ⟨u.endStep, (step_eq_next s).2 ⟨u, hu, rfl⟩⟩

/-- Settles O39: no arm of `exec` refuses, and the frame adds no refusal. -/
theorem everyStepAnswersANextState : Obligations.EveryStepAnswersANextState :=
  ⟨exec_answers_next, step_answers_next⟩

/-! ## The timers (R105, R106) -/

@[simp] theorem pcSkipIf_dt (s : State) (c : Bool) : (s.pcSkipIf c).dt = s.dt := by rw [pcSkipIf_eq, setPc_dt]
@[simp] theorem pcSkipIf_st (s : State) (c : Bool) : (s.pcSkipIf c).st = s.st := by rw [pcSkipIf_eq, setPc_st]
@[simp] theorem storeRegs_dt (n : Nat) (s : State) : (s.storeRegs n).dt = s.dt := by rw [storeRegs_eq]
@[simp] theorem storeRegs_st (n : Nat) (s : State) : (s.storeRegs n).st = s.st := by rw [storeRegs_eq]
@[simp] theorem loadRegs_dt (n : Nat) (s : State) : (s.loadRegs n).dt = s.dt := by rw [loadRegs_eq]
@[simp] theorem loadRegs_st (n : Nat) (s : State) : (s.loadRegs n).st = s.st := by rw [loadRegs_eq]

/-- Only LD DT, Vx writes DT (R185). -/
theorem exec_dt {i : Instr} (h : exec i s = .next t) (hDt : ∀ x, i ≠ .ldDt x) : t.dt = s.dt := by
  cases i with
  | ldDt x => exact absurd rfl (hDt x)
  | ret => rw [eq_of_execRet h]
  | call nnn => rw [eq_of_execCall h]
  | ldVxK x => rw [eq_of_execLdVxK h]
  | _ => cases h; simp

/-- Only LD ST, Vx writes ST (R186). -/
theorem exec_st {i : Instr} (h : exec i s = .next t) (hSt : ∀ x, i ≠ .ldSt x) : t.st = s.st := by
  cases i with
  | ldSt x => exact absurd rfl (hSt x)
  | ret => rw [eq_of_execRet h]
  | call nnn => rw [eq_of_execCall h]
  | ldVxK x => rw [eq_of_execLdVxK h]
  | _ => cases h; simp

/-- A step that does not write DT counts it, unless it is held. -/
theorem step_dt_toNat (h : step s = .next t) (hDt : ∀ x, s.instrAtPc ≠ .ldDt x) :
    t.dt.toNat = if t.reply = .held then s.dt.toNat else s.dt.toNat - 1 := by
  obtain ⟨u, hu, rfl⟩ := (step_eq_next s).1 h
  rw [endStep_dt_toNat, endStep_reply, exec_dt hu hDt, beginStep_dt]

/-- A step that does not write ST counts it, unless it is held. -/
theorem step_st_toNat (h : step s = .next t) (hSt : ∀ x, s.instrAtPc ≠ .ldSt x) :
    t.st.toNat = if t.reply = .held then s.st.toNat else s.st.toNat - 1 := by
  obtain ⟨u, hu, rfl⟩ := (step_eq_next s).1 h
  rw [endStep_st_toNat, endStep_reply, exec_st hu hSt, beginStep_st]

/-- Only LD Vx, K answers `held` (R108). -/
theorem instr_of_exec_held {i : Instr} (h : exec i s = .next t) (hs : s.reply ≠ .held) (ht : t.reply = .held) :
    ∃ x, i = .ldVxK x := by
  cases i with
  | ldVxK x => exact ⟨x, rfl⟩
  | cls | drw _ _ _ => cases h; cases ht
  | _ => exact absurd ((exec_reply h nofun nofun nofun).symm.trans ht) hs

/-- Only LD Vx, K is held (R108). -/
theorem instrAtPc_of_step_held (h : step s = .next t) (ht : t.reply = .held) : ∃ x, s.instrAtPc = .ldVxK x := by
  obtain ⟨u, hu, rfl⟩ := (step_eq_next s).1 h
  exact instr_of_exec_held hu nofun (endStep_reply u ▸ ht)

/-- Settles O40: a held step is an LD Vx, K, which writes no timer. -/
theorem timersCountOncePerCompletedStep : Obligations.TimersCountOncePerCompletedStep := by
  intro s t h
  refine ⟨fun hr => ?_, fun hr => ⟨fun hDt => ?_, fun hSt => ?_⟩⟩
  · obtain ⟨x, hx⟩ := instrAtPc_of_step_held h hr
    have hdt := step_dt_toNat h (hx ▸ nofun)
    have hst := step_st_toNat h (hx ▸ nofun)
    rw [if_pos hr] at hdt hst
    exact ⟨BitVec.eq_of_toNat_eq hdt, BitVec.eq_of_toNat_eq hst⟩
  · rw [step_dt_toNat h hDt, if_neg hr]
  · rw [step_st_toNat h hSt, if_neg hr]

/-- Settles O19: all three instructions complete, and the count comes after their effect. -/
theorem timerStepsCountAfterTheirEffect : Obligations.TimerStepsCountAfterTheirEffect := by
  intro s x
  refine ⟨fun hi => ?_, fun hi => ?_, fun hi => ?_⟩
  · exact ⟨_, step_of_completed hi rfl nofun, countDown_toNat _, countDown_toNat _⟩
  · exact ⟨_, step_of_completed hi rfl nofun, countDown_toNat _, countDown_toNat _⟩
  · exact ⟨_, step_of_completed hi rfl nofun, readV_writeV_same _ x _, countDown_toNat _⟩

/-! ## The program counter (R104) -/

/-- A skip moves pc by 4 or 2 (R145). -/
theorem advances_pcSkipIf (s : State) (c : Bool) : Advances s (s.pcSkipIf c) (if c then 4 else 2) := by
  cases c
  · exact pcNext_toNat s
  · exact pcSkip_toNat s

/-- A skip on the negated condition moves pc by 2 or 4 (R145). -/
theorem advances_pcSkipIf_not (s : State) (c : Bool) : Advances s (s.pcSkipIf (!c)) (if c then 2 else 4) := by
  cases c
  · exact pcSkip_toNat s
  · exact pcNext_toNat s

/-- A skip on equality moves pc by 4 when the bytes are equal (R140, R142). -/
theorem advances_pcSkipIf_beq (s : State) (a b : Byte) :
    Advances s (s.pcSkipIf (a == b)) (if a = b then 4 else 2) := by
  simpa only [beq_iff_eq] using advances_pcSkipIf s (a == b)

/-- A skip on inequality moves pc by 2 when the bytes are equal (R141, R143). -/
theorem advances_pcSkipIf_bne (s : State) (a b : Byte) :
    Advances s (s.pcSkipIf (a != b)) (if a = b then 2 else 4) := by
  simpa only [bne, beq_iff_eq] using advances_pcSkipIf_not s (a == b)

theorem advances_of_pc_eq (h : t.pc = s.pc + 2) : Advances s t 2 := by
  rw [Advances, h, ← pcNext_pc, pcNext_toNat]

@[simp] theorem loadRegs_pc (n : Nat) (s : State) : (s.loadRegs n).pc = s.pc := by rw [loadRegs_eq]

/-- Settles O41: jumps, CALL, RET, skips and LD Vx, K each have their row; every other instruction ends with
`pcNext`. -/
theorem pcMovesOnlyAsListed : Obligations.PcMovesOnlyAsListed := by
  intro i s t h
  cases i with
  | jp nnn => cases h; rfl
  | jpV0 nnn => cases h; exact indexedTarget_toNat nnn _
  | call nnn =>
    rcases sp_free_or_full s with hsp | hsp
    · cases (execCall_free s nnn hsp).symm.trans h
      exact (if_pos hsp).mpr rfl
    · cases (execCall_full s nnn hsp).symm.trans h
      exact (if_neg (by omega)).mpr (pcNext_toNat s)
  | ret =>
    rcases sp_cases s with h0 | ⟨k, hk, hsp⟩
    · cases (execRet_empty s h0).symm.trans h
      exact ⟨fun _ => rfl, fun j hj => by omega⟩
    · cases (execRet_live s hk hsp).symm.trans h
      refine ⟨fun h0 => by omega, fun j hj => ?_⟩
      obtain rfl : k = j.val := by omega
      rfl
  | seImm _ _ | seReg _ _ => cases h; exact advances_pcSkipIf_beq s _ _
  | sneImm _ _ | sneReg _ _ => cases h; exact advances_pcSkipIf_bne s _ _
  | skp _ => cases h; exact advances_pcSkipIf s _
  | sknp _ => cases h; exact advances_pcSkipIf_not s _
  | ldVxK x =>
    cases hk : s.input.keyWait with
    | none =>
      cases (execLdVxK_held s x hk).symm.trans h
      exact (if_pos hk).mpr rfl
    | some k =>
      cases (execLdVxK_key s x hk).symm.trans h
      exact (if_neg (by simp [State.keyWait, hk])).mpr (pcNext_toNat s)
  | _ => cases h; exact advances_of_pc_eq (by simp)

/-! ## The value returned (R107) -/

/-- An instruction other than CLS and DRW that is not held leaves the reply as it is. -/
theorem exec_reply_of_not_held {i : Instr} (h : exec i s = .next t) (hCls : i ≠ .cls)
    (hDrw : ∀ x y n, i ≠ .drw x y n) (ht : t.reply ≠ .held) : t.reply = s.reply := by
  cases i with
  | ldVxK x => exact (execLdVxK_reply h).resolve_left ht
  | _ => exact exec_reply h hCls hDrw nofun

/-- Settles O42: the step begins with NONE, and only CLS and DRW put something else there. -/
theorem replyIsTheInstructionsOwn : Obligations.ReplyIsTheInstructionsOwn := by
  intro s t h hr
  obtain ⟨u, hu, rfl⟩ := (step_eq_next s).1 h
  rw [endStep_reply] at hr ⊢
  refine ⟨fun hi => ?_, fun x y n hi => ?_, fun hCls hDrw => exec_reply_of_not_held hu hCls hDrw hr⟩
  · rw [hi] at hu
    cases hu; rfl
  · rw [hi] at hu
    cases hu; exact ⟨_, rfl⟩

/-! ## Runs of completed steps (R106, R237) -/

/-- What every step of a run counts down by one, the run counts down by its length. -/
theorem runSteps_countsDown {f : State → Nat} {n : Nat} (h : runSteps n s = .next t)
    (hf : ∀ m w w', m < n → runSteps m s = .next w → step w = .next w' → f w' = f w - 1) : f t = f s - n := by
  induction n generalizing s with
  | zero => cases h; rfl
  | succ n ih =>
    obtain ⟨s', hs'⟩ := step_answers_next s
    rw [runSteps_succ s hs'] at h
    have hrest : f t = f s' - n := ih h fun m w w' hm hw =>
      hf (m + 1) w w' (Nat.succ_lt_succ hm) (runSteps_succ s hs' ▸ hw)
    have hfirst : f s' = f s - 1 := hf 0 s s' (Nat.succ_pos n) rfl hs'
    omega

/-- Settles O52: each of the steps is completed and does not write the timer, so it counts it. -/
theorem timersMeasureSteps : Obligations.TimersMeasureSteps := by
  intro n s t h hheld
  refine ⟨fun hDt => ?_, fun hSt => ?_⟩
  · refine runSteps_countsDown (f := fun s => s.dt.toNat) h fun m w w' hm hw hstep => ?_
    exact (step_dt_toNat hstep fun x => hDt m w x hm hw).trans (if_neg (hheld m w w' hm hw hstep))
  · refine runSteps_countsDown (f := fun s => s.st.toNat) h fun m w w' hm hw hstep => ?_
    exact (step_st_toNat hstep fun x => hSt m w x hm hw).trans (if_neg (hheld m w w' hm hw hstep))

/-! ## Waiting for a key (R108, R184) -/

/-- The step at LD Vx, K with no key to report. -/
theorem step_ldVxK_held {x : Reg} (hi : s.instrAtPc = .ldVxK x) (hk : s.input.keyWait = none) :
    step s = .next s.beginStep.hold.endRequest :=
  step_of_held hi (execLdVxK_held s.beginStep x hk) rfl

/-- The step at LD Vx, K with a key reported. -/
theorem step_ldVxK_key {x : Reg} {k : Byte} (hi : s.instrAtPc = .ldVxK x) (hk : s.input.keyWait = some k) :
    step s = .next (s.beginStep.writeV x k).pcNext.tickTimers.endRequest :=
  step_of_completed hi (execLdVxK_key s.beginStep x hk) nofun

theorem heldStep_changesOnly (s : State) :
    ChangesOnly s s.beginStep.hold.endRequest [.reply, .inputs, .requests] := by
  intro p hp
  cases p with
  | reply | inputs | requests => simp at hp
  | _ => rfl

theorem keyStep_changesOnly (s : State) (x : Reg) (k : Byte) :
    ChangesOnly s (s.beginStep.writeV x k).pcNext.tickTimers.endRequest
      [.pc, .v x, .dt, .st, .reply, .inputs, .requests] := by
  intro p hp
  cases p with
  | pc | dt | st | reply | inputs | requests => simp at hp
  | v z => exact readV_writeV_other _ (by simpa using hp) _
  | _ => rfl

/-- Settles O21: a held step is the reply `held` and the end of the request, and no count. -/
theorem heldStepChangesNoCoreState : Obligations.HeldStepChangesNoCoreState :=
  fun s _ hi hk => ⟨_, step_ldVxK_held hi hk, rfl, heldStep_changesOnly s⟩

/-- Settles O53, by induction on the answers that report no key: each is one held step, after which the same
instruction is at pc and one answer fewer is listed. -/
theorem waitForKeyEndsWithTheFirstKey : Obligations.WaitForKeyEndsWithTheFirstKey := by
  intro s x waits last k rest hi hin hwaits hlast
  induction waits generalizing s with
  | nil =>
    have hk : s.input.keyWait = some k := by rw [input_of_cons s hin, hlast]
    exact ⟨_, runSteps_succ s (step_ldVxK_key hi hk), readV_writeV_same _ x k, pcNext_toNat s, countDown_toNat _,
      countDown_toNat _, congrArg List.tail hin, keyStep_changesOnly s x k⟩
  | cons w waits ih =>
    have hk : s.input.keyWait = none := by rw [input_of_cons s hin, hwaits w (by simp)]
    obtain ⟨t, hrun, hv, hpc, hdt, hst, hins, hframe⟩ := ih s.beginStep.hold.endRequest hi
      (congrArg List.tail hin) fun inp hmem => hwaits inp (List.mem_cons_of_mem w hmem)
    exact ⟨t, (runSteps_succ s (step_ldVxK_held hi hk)).trans hrun, hv, hpc, hdt, hst, hins,
      ((heldStep_changesOnly s).mono (by simp)).trans hframe⟩

end Sys2Proof.Machine

/-! # The display (spec/41_display.md) -/

namespace Sys2Proof.Machine

/-- Returning a display change and moving to the next instruction writes the reply and pc only (R120, R121). -/
theorem setDc_pcNext_changesOnly (s : State) (dc : DisplayChange) :
    ChangesOnly s (s.setDc dc).pcNext [.pc, .reply] := by
  intro p hp
  cases p with
  | pc | reply => simp at hp
  | _ => rfl

/-- Settles O2: membership, no duplicates and the bound on the length are the three facts about the pixels of a
sprite; the frame is that of every returned display change. -/
theorem drwTogglesExactlyTheSetBits : Obligations.DrwTogglesExactlyTheSetBits := fun s x y n =>
  ⟨_, s.spritePixels x y n.val, rfl, rfl, fun _ => mem_spritePixels, spritePixels_nodup s x y n,
    spritePixels_length_le s x y n, pcNext_toNat _, setDc_pcNext_changesOnly s _⟩

/-- Settles O1: the state CLS answers is the one that returns CLEAR and moves to the next instruction. -/
theorem clsReturnsFullClear : Obligations.ClsReturnsFullClear := fun s =>
  ⟨_, rfl, rfl, pcNext_toNat _, setDc_pcNext_changesOnly s .clear⟩

end Sys2Proof.Machine

/-! # Control transfer (spec/42_control_transfer.md)

## What the four instructions change (R130 to R133) -/

namespace Sys2Proof.Machine

variable {s t : State}

theorem setPc_changesOnly (s : State) (a : Addr) : ChangesOnly s (s.setPc a) [.pc] := by
  intro p hp
  cases p with
  | pc => simp at hp
  | _ => rfl

theorem withPcSp_changesOnly (s : State) (a : Addr) (k : Fin 17) :
    ChangesOnly s { s with pc := a, sp := k } [.pc, .sp] := by
  intro p hp
  cases p with
  | pc | sp => simp at hp
  | _ => rfl

/-- A write of one stack cell leaves the other fifteen as they are (R132). -/
theorem withPcSpCell_changesOnly (s : State) (a b : Addr) (k : Fin 16) (n : Fin 17) :
    ChangesOnly s { s with stack := s.stack.set k.val b, sp := n, pc := a } [.pc, .sp, .stack k] := by
  intro p hp
  cases p with
  | pc | sp => simp at hp
  | stack j =>
    have hjk : j ≠ k := by simpa using hp
    exact Vector.getElem_set_ne k.isLt j.isLt fun e => hjk (Fin.ext e.symm)
  | _ => rfl

/-- Settles O4: each jump is one write of pc. -/
theorem jumpsSetPcToTheirTarget : Obligations.JumpsSetPcToTheirTarget := fun s nnn =>
  ⟨⟨_, rfl, rfl, setPc_changesOnly s nnn⟩,
    ⟨_, rfl, indexedTarget_toNat nnn (s.readV 0), setPc_changesOnly s _⟩⟩

/-- Settles O3: RET has one case for the empty stack and one for a newest entry. -/
theorem retPopsNewestEntryOrLeavesPc : Obligations.RetPopsNewestEntryOrLeavesPc := by
  intro s
  rcases sp_cases s with h0 | ⟨k, hk, hsp⟩
  · exact ⟨s, execRet_empty s h0, fun j hj => by omega, fun _ => ⟨rfl, rfl⟩, .refl s _⟩
  · refine ⟨_, execRet_live s hk hsp, fun j hj => ?_, fun h0 => by omega, withPcSp_changesOnly s _ _⟩
    obtain rfl : k = j.val := by omega
    exact ⟨rfl, rfl⟩

/-- Settles O5: CALL has one case for a free cell and one for the full stack. -/
theorem callPushesReturnAddressOrIsDropped : Obligations.CallPushesReturnAddressOrIsDropped := by
  intro s nnn
  rcases sp_free_or_full s with hsp | hsp
  · refine ⟨_, execCall_free s nnn hsp, fun k hk => ?_, fun hfull => by omega⟩
    obtain rfl : k = ⟨s.sp.val, hsp⟩ := Fin.ext hk.symm
    have hcell : (s.stack.set s.sp.val (s.pc + 2))[s.sp.val] = s.pc + 2 := Vector.getElem_set_self hsp
    exact ⟨(congrArg BitVec.toNat hcell).trans (pcNext_toNat s), rfl, rfl, withPcSpCell_changesOnly s _ _ _ _⟩
  · exact ⟨_, execCall_full s nnn hsp, fun k hk => by omega, fun _ => ⟨pcNext_toNat s, setPc_changesOnly s _⟩⟩

/-! ## A CALL and the RET that matches it (R134) -/

/-- The step at a CALL below capacity leaves its return address in the cell it counts. -/
theorem step_call_free {nnn : Addr} (hi : s.instrAtPc = .call nnn) (hsp : s.sp.val < 16) (h : step s = .next t) :
    t.sp.val = s.sp.val + 1 ∧ t.stack[s.sp.val] = s.pc + 2 := by
  cases (step_of_completed hi (execCall_free s.beginStep nnn hsp) nofun).symm.trans h
  exact ⟨rfl, Vector.getElem_set_self hsp⟩

/-- The step at a RET goes to the newest entry. -/
theorem step_ret_live {k : Nat} (hk : k < 16) (hi : s.instrAtPc = .ret) (hsp : s.sp.val = k + 1) :
    ∃ t, step s = .next t ∧ t.pc = s.stack[k] ∧ t.sp.val = k :=
  ⟨_, step_of_completed hi (execRet_live s.beginStep hk hsp) nofun, rfl, rfl⟩

/-- No step changes a live cell. -/
theorem step_stack_below_sp (h : step s = .next t) {k : Fin 16} (hk : k.val < s.sp.val) : t.stack[k] = s.stack[k] := by
  obtain ⟨u, hu, rfl⟩ := (step_eq_next s).1 h
  simpa using exec_stack_below_sp hu hk

/-- What every step of a run keeps, the run keeps. -/
theorem runSteps_keeps {α : Type} {f : State → α} {n : Nat} (h : runSteps n s = .next t)
    (hf : ∀ m w w', m < n → runSteps m s = .next w → step w = .next w' → f w' = f w) : f t = f s := by
  induction n generalizing s with
  | zero => cases h; rfl
  | succ n ih =>
    obtain ⟨s', hs'⟩ := step_answers_next s
    rw [runSteps_succ s hs'] at h
    have hrest : f t = f s' := ih h fun m w w' hm hw =>
      hf (m + 1) w w' (Nat.succ_lt_succ hm) (runSteps_succ s hs' ▸ hw)
    exact hrest.trans (hf 0 s s' (Nat.succ_pos n) rfl hs')

/-- A run that stays above a cell keeps it. -/
theorem runSteps_stack_below_sp {n : Nat} {k : Fin 16} (h : runSteps n s = .next t)
    (hk : ∀ m w, m < n → runSteps m s = .next w → k.val < w.sp.val) : t.stack[k] = s.stack[k] :=
  runSteps_keeps (f := fun w => w.stack[k]) h fun m w _ hm hw hstep => step_stack_below_sp hstep (hk m w hm hw)

/-- Settles O49: the cell the CALL wrote stays live until the RET pops it. -/
theorem subroutineReturnsAfterItsCall : Obligations.SubroutineReturnsAfterItsCall := by
  intro n s t u nnn hsp hcall hstep hrun hdepth husp hret
  obtain ⟨htsp, hpushed⟩ := step_call_free hcall hsp hstep
  have hkept : u.stack[s.sp.val] = t.stack[s.sp.val] :=
    runSteps_stack_below_sp (k := ⟨s.sp.val, hsp⟩) hrun fun m w hm hw => by
      have hle : t.sp.val ≤ w.sp.val := hdepth m w hm.le hw
      show s.sp.val < w.sp.val
      omega
  obtain ⟨z, hz, hzpc, hzsp⟩ := step_ret_live hsp hret (husp ▸ htsp)
  refine ⟨z, hz, ?_, Fin.ext hzsp⟩
  rw [hzpc, hkept, hpushed]
  exact pcNext_toNat s

/-! ## Idle loops (R262, R256) -/

/-- What a step of an instruction without any effect leaves: the reply NONE, the timers counted, the request
over. -/
def State.idled (s : State) : State := s.beginStep.tickTimers.endRequest

theorem idled_changesOnly (s : State) : ChangesOnly s s.idled [.dt, .st, .reply, .inputs, .requests] := by
  intro p hp
  cases p with
  | dt | st | reply | inputs | requests => simp at hp
  | _ => rfl

theorem idled_dt_toNat (s : State) : s.idled.dt.toNat = s.dt.toNat - 1 := countDown_toNat s.dt

theorem idled_st_toNat (s : State) : s.idled.st.toNat = s.st.toNat - 1 := countDown_toNat s.st

/-- RET on an empty stack has no effect (R130). -/
theorem step_ret_empty (hi : s.instrAtPc = .ret) (h0 : s.sp.val = 0) : step s = .next s.idled :=
  step_of_completed hi (execRet_empty s.beginStep h0) nofun

/-- A jump to its own address has no effect (R131). -/
theorem step_jp_self (hi : s.instrAtPc = .jp s.pc) : step s = .next s.idled :=
  step_of_completed hi (u := s.beginStep) rfl nofun

/-- Where idle steps lead to idle steps only, a run of `n` of them counts the timers down by `n` and changes
no other core state. -/
theorem runSteps_idle {P : State → Prop} (hP : ∀ w, P w → step w = .next w.idled ∧ P w.idled) (n : Nat)
    (hs : P s) :
    ∃ t, runSteps n s = .next t ∧ t.dt.toNat = s.dt.toNat - n ∧ t.st.toNat = s.st.toNat - n ∧
      ChangesOnly s t [.dt, .st, .reply, .inputs, .requests] := by
  induction n generalizing s with
  | zero => exact ⟨s, runSteps_zero s, rfl, rfl, .refl s _⟩
  | succ n ih =>
    obtain ⟨hstep, hnext⟩ := hP s hs
    obtain ⟨t, hrun, hdt, hst, hframe⟩ := ih hnext
    rw [idled_dt_toNat] at hdt
    rw [idled_st_toNat] at hst
    exact ⟨t, (runSteps_succ s hstep).trans hrun, by omega, by omega, (idled_changesOnly s).trans hframe⟩

/-- Settles O51: after each idle step the same jump is at the same pc. -/
theorem selfJumpOnlyCountsTimers : Obligations.SelfJumpOnlyCountsTimers := fun n _ hi =>
  runSteps_idle (P := fun w => w.instrAtPc = .jp w.pc) (fun _ hw => ⟨step_jp_self hw, hw⟩) n hi

/-- Settles O50: after each idle step the same RET meets the same empty stack, and timers at 0 stay there. -/
theorem emptyStackReturnRepeatsForEver : Obligations.EmptyStackReturnRepeatsForEver := by
  intro n s hi h0 hdt hst
  obtain ⟨t, hrun, htdt, htst, hframe⟩ := runSteps_idle (P := fun w => w.instrAtPc = .ret ∧ w.sp.val = 0)
    (fun _ ⟨hw, hw0⟩ => ⟨step_ret_empty hw hw0, hw, hw0⟩) n ⟨hi, h0⟩
  refine ⟨t, hrun, fun p hp => ?_⟩
  cases p with
  | dt => exact BitVec.eq_of_toNat_eq (by simpa [hdt] using htdt)
  | st => exact BitVec.eq_of_toNat_eq (by simpa [hst] using htst)
  | reply | inputs | requests => simp at hp
  | _ => exact hframe _ (by simp)

end Sys2Proof.Machine

/-! # Register skips (spec/43_skips.md) -/

namespace Sys2Proof.Machine

/-- A skip writes pc only, taken or not (R145). -/
theorem pcSkipIf_changesOnly (s : State) (c : Bool) : ChangesOnly s (s.pcSkipIf c) [.pc] := by
  rw [pcSkipIf_eq]
  exact setPc_changesOnly s _

/-- A skip on inequality moves pc by 4 when the bytes differ (R141, R143). -/
theorem advances_pcSkipIf_bne_of_ne (s : State) (a b : Byte) :
    Advances s (s.pcSkipIf (a != b)) (if a ≠ b then 4 else 2) := by
  rw [ite_not]
  exact advances_pcSkipIf_bne s a b

/-- Settles O6: SE skips on the equality and SNE on the inequality of the two bytes it compares, and every skip
has the same frame. -/
theorem registerSkipsMoveFourOrTwo : Obligations.RegisterSkipsMoveFourOrTwo := fun s x y nn =>
  ⟨⟨_, rfl, advances_pcSkipIf_beq s (s.readV x) nn, pcSkipIf_changesOnly s _⟩,
    ⟨_, rfl, advances_pcSkipIf_bne_of_ne s (s.readV x) nn, pcSkipIf_changesOnly s _⟩,
    ⟨_, rfl, advances_pcSkipIf_beq s (s.readV x) (s.readV y), pcSkipIf_changesOnly s _⟩,
    ⟨_, rfl, advances_pcSkipIf_bne_of_ne s (s.readV x) (s.readV y), pcSkipIf_changesOnly s _⟩⟩

end Sys2Proof.Machine

/-! # Loads and the ALU (spec/44_load_and_alu.md)

Six instructions write Vx and move on; ADD Vx, Vy, SUB and SHL write VF after Vx (R25), so what they leave in VF
is the flag also when x is VF. -/

namespace Sys2Proof.Machine

/-! ## One register write -/

theorem writeV_changesOnly (s : State) (x : Reg) (b : Byte) : ChangesOnly s (s.writeV x b) [.v x] := by
  intro p hp
  cases p with
  | v z => exact readV_writeV_other s (by simpa using hp) b
  | _ => rfl

theorem writeV_pcNext_changesOnly (s : State) (x : Reg) (b : Byte) :
    ChangesOnly s (s.writeV x b).pcNext [.pc, .v x] :=
  ((writeV_changesOnly s x b).mono (by simp)).trans ((setPc_changesOnly _ _).mono (by simp))

theorem readV_writeV_pcNext_same (s : State) (x : Reg) (b : Byte) : (s.writeV x b).pcNext.readV x = b := by
  rw [readV_pcNext, readV_writeV_same]

/-- Settles O8: each load is one register write, of the immediate or of the old Vy. -/
theorem loadsCopyIntoVx : Obligations.LoadsCopyIntoVx := fun s x _ _ =>
  ⟨⟨_, rfl, readV_writeV_pcNext_same s x _, pcNext_toNat _, writeV_pcNext_changesOnly s x _⟩,
    ⟨_, rfl, readV_writeV_pcNext_same s x _, pcNext_toNat _, writeV_pcNext_changesOnly s x _⟩⟩

/-- Settles O9: the one register write is of the saturating sum. -/
theorem addImmSaturatesWithoutFlag : Obligations.AddImmSaturatesWithoutFlag := fun s x nn =>
  ⟨_, rfl, (congrArg BitVec.toNat (readV_writeV_pcNext_same s x _)).trans (satAdd_toNat (s.readV x) nn),
    pcNext_toNat _, writeV_pcNext_changesOnly s x _⟩

/-- Settles O10: each operation is one register write of a bit vector whose bits are the operation on bits. -/
theorem bitwiseOpsWriteOnlyVx : Obligations.BitwiseOpsWriteOnlyVx := by
  intro s x y
  refine ⟨⟨_, rfl, fun k _ => ?_, pcNext_toNat _, writeV_pcNext_changesOnly s x _⟩,
    ⟨_, rfl, fun k _ => ?_, pcNext_toNat _, writeV_pcNext_changesOnly s x _⟩,
    ⟨_, rfl, fun k _ => ?_, pcNext_toNat _, writeV_pcNext_changesOnly s x _⟩⟩
  · rw [readV_writeV_pcNext_same, BitVec.getLsbD_or]
  · rw [readV_writeV_pcNext_same, BitVec.getLsbD_and]
  · rw [readV_writeV_pcNext_same, BitVec.getLsbD_xor]

/-! ## A register write, then the flag (R24, R25) -/

theorem writeV_writeFlag_pcNext_changesOnly (s : State) (x : Reg) (b : Byte) (f : Bool) :
    ChangesOnly s ((s.writeV x b).writeFlag f).pcNext [.pc, .v x, .v flagReg] :=
  ((writeV_changesOnly s x b).mono (by simp)).trans ((writeV_pcNext_changesOnly _ flagReg _).mono (by simp))

/-- Writing VF last disturbs the result only where x is VF itself (R25). -/
theorem readV_writeFlag_pcNext_dest (s : State) {x : Reg} (hx : x ≠ flagReg) (b : Byte) (f : Bool) :
    ((s.writeV x b).writeFlag f).pcNext.readV x = b := by
  rw [readV_pcNext, readV_writeFlag, if_neg hx, readV_writeV_same]

/-- The flag computations are decisions of exact comparisons, so VF is stated through the comparison (R24). -/
theorem readV_writeFlag_pcNext_flag_toNat (s : State) (p : Prop) [Decidable p] :
    ((s.writeFlag (decide p)).pcNext.readV flagReg).toNat = if p then 1 else 0 := by
  rw [readV_pcNext, readV_writeFlag, if_pos rfl]
  by_cases hp : p <;> simp [hp]

/-- Settles O11: the saturating sum is written to Vx, then the carry to VF. -/
theorem addRegSaturatesAndSetsCarry : Obligations.AddRegSaturatesAndSetsCarry := by
  intro s x y
  refine ⟨_, rfl, fun hx => ?_, readV_writeFlag_pcNext_flag_toNat _ _, pcNext_toNat _,
    writeV_writeFlag_pcNext_changesOnly s x _ _⟩
  rw [readV_writeFlag_pcNext_dest s hx, satAdd_toNat]

/-- Settles O12: the floored difference is written to Vx, then the borrow to VF. -/
theorem subRegFloorsAndSetsBorrow : Obligations.SubRegFloorsAndSetsBorrow := by
  intro s x y
  refine ⟨_, rfl, fun hx => ?_, readV_writeFlag_pcNext_flag_toNat _ _, pcNext_toNat _,
    writeV_writeFlag_pcNext_changesOnly s x _ _⟩
  rw [readV_writeFlag_pcNext_dest s hx, satSub_toNat]

/-- Settles O13: the truncated shift is written to Vx, then the old bit 7 to VF; as a number, bit 7 of a byte is
its quotient by 128. -/
theorem shlTruncatesAndSetsOldTopBit : Obligations.ShlTruncatesAndSetsOldTopBit := by
  intro s x y
  refine ⟨_, rfl, fun hx => ?_, ?_, pcNext_toNat _, writeV_writeFlag_pcNext_changesOnly s x _ _⟩
  · rw [readV_writeFlag_pcNext_dest s hx, shiftLeftOne_toNat]
  · rw [shiftedOutFlag_eq, readV_writeFlag_pcNext_flag_toNat]
    have hbyte := (s.readV x).isLt
    split <;> omega

end Sys2Proof.Machine

/-! # The address register (spec/45_address_register.md)

All three instructions write I and move on; ADD I, Vx writes VF between the two, after it has read Vx (R25). -/

namespace Sys2Proof.Machine

theorem setI_changesOnly (s : State) (a : Addr) : ChangesOnly s (s.setI a) [.i] := by
  intro p hp
  cases p with
  | i => simp at hp
  | _ => rfl

theorem setI_pcNext_changesOnly (s : State) (a : Addr) : ChangesOnly s (s.setI a).pcNext [.pc, .i] :=
  ((setI_changesOnly s a).mono (by simp)).trans ((setPc_changesOnly _ _).mono (by simp))

theorem setI_writeFlag_pcNext_changesOnly (s : State) (a : Addr) (f : Bool) :
    ChangesOnly s ((s.setI a).writeFlag f).pcNext [.pc, .i, .v flagReg] :=
  ((setI_changesOnly s a).mono (by simp)).trans ((writeV_pcNext_changesOnly _ flagReg _).mono (by simp))

/-- Settles O14: the one write of I is of the address as it stands in the instruction. -/
theorem ldISetsAddressExactly : Obligations.LdISetsAddressExactly := fun s nnn =>
  ⟨_, rfl, rfl, pcNext_toNat _, setI_pcNext_changesOnly s nnn⟩

/-- Settles O15: the saturating sum is written to I, then the overflow to VF; both are of the old I and Vx, so x
may be VF. -/
theorem addISaturatesAndSetsOverflow : Obligations.AddISaturatesAndSetsOverflow := fun s x =>
  ⟨_, rfl, satAddAddr_toNat s.i (s.readV x), readV_writeFlag_pcNext_flag_toNat _ _, pcNext_toNat _,
    setI_writeFlag_pcNext_changesOnly s _ _⟩

/-- Settles O16: the one write of I is of the glyph address of the whole of Vx. -/
theorem ldFMapsGlyphIndex : Obligations.LdFMapsGlyphIndex := fun s x =>
  ⟨_, rfl, glyphAddr_toNat s.params (s.readV x), pcNext_toNat _, setI_pcNext_changesOnly s _⟩

end Sys2Proof.Machine

/-! # Random, timers and input (spec/46_random_timers_input.md)

The answers of the request are read before anything is written, so the key skips are skips like any other, and
RND and a completed LD Vx, K are one register write each. -/

namespace Sys2Proof.Machine

/-! ## The key skips (R181, R182) -/

/-- Whether a key is pressed is membership in the list of pressed codes, with no bit of the code masked off (D15). -/
theorem keyPressed_iff (s : State) (k : Byte) : s.keyPressed k = true ↔ k ∈ s.input.pressed :=
  List.contains_iff_mem

/-- Settles O7: both skips decide on the one query about Vx, SKNP on its negation. -/
theorem keySkipsAskAboutWholeRegister : Obligations.KeySkipsAskAboutWholeRegister := by
  intro s x
  simp only [← keyPressed_iff]
  exact ⟨⟨_, rfl, advances_pcSkipIf s _, pcSkipIf_changesOnly s _⟩,
    ⟨_, rfl, advances_pcSkipIf_not s _, pcSkipIf_changesOnly s _⟩⟩

/-! ## The random byte (R180) -/

/-- A masked byte has no bit outside its mask. -/
theorem and_mask_and_not_mask (r mask : Byte) : r &&& mask &&& ~~~mask = 0 := by
  rw [BitVec.and_assoc, BitVec.and_not_self]
  exact BitVec.and_zero

/-- A masked byte is at most its mask. -/
theorem and_mask_toNat_le (r mask : Byte) : (r &&& mask).toNat ≤ mask.toNat := by
  rw [BitVec.toNat_and]
  exact Nat.and_le_right

/-- Settles O17: the one register write is of the masked draw, so the two facts about masked bytes hold of Vx. -/
theorem rndStoresMaskedDraw : Obligations.RndStoresMaskedDraw := by
  intro s x nn
  have hv : (s.writeV x (s.input.rand &&& nn)).pcNext.readV x = s.input.rand &&& nn :=
    readV_writeV_pcNext_same s x _
  refine ⟨_, rfl, hv, ?_, ?_, pcNext_toNat _, writeV_pcNext_changesOnly s x _⟩
  · exact (congrArg (· &&& ~~~nn) hv).trans (and_mask_and_not_mask _ nn)
  · exact (congrArg BitVec.toNat hv).trans_le (and_mask_toNat_le _ nn)

/-! ## The timer instructions (R183, R185, R186) -/

theorem setDt_pcNext_changesOnly (s : State) (b : Byte) : ChangesOnly s (s.setDt b).pcNext [.pc, .dt] := by
  intro p hp
  cases p with
  | pc | dt => simp at hp
  | _ => rfl

theorem setSt_pcNext_changesOnly (s : State) (b : Byte) : ChangesOnly s (s.setSt b).pcNext [.pc, .st] := by
  intro p hp
  cases p with
  | pc | st => simp at hp
  | _ => rfl

/-- Settles O18: each instruction is one write, of Vx or of the counter, with a value read before it. -/
theorem timerInstructionsCopy : Obligations.TimerInstructionsCopy := fun s x =>
  ⟨⟨_, rfl, readV_writeV_pcNext_same s x _, pcNext_toNat _, writeV_pcNext_changesOnly s x _⟩,
    ⟨_, rfl, rfl, pcNext_toNat _, setDt_pcNext_changesOnly s _⟩,
    ⟨_, rfl, rfl, pcNext_toNat _, setSt_pcNext_changesOnly s _⟩⟩

/-! ## The key that ends a wait (R184) -/

/-- Settles O20: with a key reported, LD Vx, K is the register write of its code. -/
theorem ldKStoresReportedKey : Obligations.LdKStoresReportedKey := fun s x k hk =>
  ⟨_, execLdVxK_key s x hk, readV_writeV_pcNext_same s x k, pcNext_toNat _, writeV_pcNext_changesOnly s x k⟩

end Sys2Proof.Machine

/-! # Memory transfer (spec/47_memory_transfer.md)

LD B, Vx is three stores and LD [I], Vx is a loop of them; what a store leaves alone needs memory in its canonical
form. LD Vx, [I] is a loop of register writes. -/

namespace Sys2Proof.Machine

variable {s : State}

/-! ## What the stores and the loads leave unchanged (R203) -/

theorem writeMem_changesOnly (h : s.mem.wf = true) (a : Addr) (b : Byte) : ChangesOnly s (s.writeMem a b) [.mem a] := by
  intro p hp
  cases p with
  | mem c => exact (readMem_writeMem h a c b).trans (if_neg (by simpa using hp))
  | _ => rfl

theorem storeRegs_changesOnly (h : s.mem.wf = true) (n : Nat) :
    ChangesOnly s (s.storeRegs n) ((List.range n).map fun k => .mem (s.ea k)) := by
  intro p hp
  cases p with
  | mem a =>
    exact readMem_storeRegs h n a fun k hk e => hp (List.mem_map.2 ⟨k, List.mem_range.2 hk, e ▸ rfl⟩)
  | _ => rw [storeRegs_eq]; rfl

theorem loadRegs_changesOnly (s : State) {n : Nat} (hn : n ≤ 16) :
    ChangesOnly s (s.loadRegs n) ((List.range n).map fun k => .v (Fin.ofNat 16 k)) := by
  intro p hp
  cases p with
  | v z =>
    have hz : ¬ z.val < n := fun hlt => hp (List.mem_map.2 ⟨z.val, List.mem_range.2 hlt, by simp⟩)
    exact (readV_loadRegs hn z).trans (if_neg hz)
  | _ => rw [loadRegs_eq]; rfl

/-- Moving to the next instruction adds pc to what a transfer may change. -/
theorem ChangesOnly.pcNext {t : State} {ps : List Part} (h : ChangesOnly s t ps) :
    ChangesOnly s t.pcNext (.pc :: ps) :=
  (h.mono fun _ => List.mem_cons_of_mem _).trans ((setPc_changesOnly t _).mono (by simp))

/-! ## The decimal digits (R200) -/

/-- Three stores to EA(0), EA(1), EA(2) do not overwrite each other, as the addresses are distinct (R59). -/
theorem readMem_writeMem_three (h : s.mem.wf = true) (b₀ b₁ b₂ : Byte) :
    let t := ((s.writeMem (s.ea 0) b₀).writeMem (s.ea 1) b₁).writeMem (s.ea 2) b₂
    t.readMem (s.ea 0) = b₀ ∧ t.readMem (s.ea 1) = b₁ ∧ t.readMem (s.ea 2) = b₂ := by
  have hne {j k : Nat} (hj : j < 3) (hk : k < 3) (hjk : j ≠ k) : s.ea j ≠ s.ea k :=
    fun e => hjk (ea_inj s (by omega) (by omega) e)
  have h₁ := writeMem_wf h (s.ea 0) b₀
  have h₂ := writeMem_wf h₁ (s.ea 1) b₁
  simp [readMem_writeMem h₂, readMem_writeMem h₁, readMem_writeMem h, hne]

theorem writeMem_three_changesOnly (h : s.mem.wf = true) (a₀ a₁ a₂ : Addr) (b₀ b₁ b₂ : Byte) :
    ChangesOnly s (((s.writeMem a₀ b₀).writeMem a₁ b₁).writeMem a₂ b₂) [.mem a₀, .mem a₁, .mem a₂] := by
  have h₁ := writeMem_wf h a₀ b₀
  have h₂ := writeMem_wf h₁ a₁ b₁
  exact (((writeMem_changesOnly h a₀ b₀).mono (by simp)).trans ((writeMem_changesOnly h₁ a₁ b₁).mono (by simp))).trans
    ((writeMem_changesOnly h₂ a₂ b₂).mono (by simp))

/-- Settles O22: the three bytes stored are the digits of Vx. -/
theorem ldBWritesDecimalDigits : Obligations.LdBWritesDecimalDigits := by
  intro s x h
  obtain ⟨hones, htens, hhundreds⟩ := bcd_toNat (s.readV x)
  obtain ⟨h₀, h₁, h₂⟩ := readMem_writeMem_three h (bcdOnes (s.readV x)) (bcdTens (s.readV x)) (bcdHundreds (s.readV x))
  exact ⟨_, rfl, (congrArg BitVec.toNat h₀).trans hones, (congrArg BitVec.toNat h₁).trans htens,
    (congrArg BitVec.toNat h₂).trans hhundreds, pcNext_toNat _, (writeMem_three_changesOnly h _ _ _ _ _ _).pcNext⟩

/-! ## The block transfers (R201, R202) -/

/-- Settles O23: the block store of `x + 1` registers, and its frame. -/
theorem storeRegsCopiesToMemory : Obligations.StoreRegsCopiesToMemory := by
  intro s x h
  refine ⟨_, rfl, fun k hk => ?_, ?_, (storeRegs_changesOnly h _).pcNext⟩
  · have hstored : (s.storeRegs (x.val + 1)).readMem (s.ea k.val) = s.readV (Fin.ofNat 16 k.val) :=
      readMem_storeRegs_ea h (by omega) (Nat.lt_succ_of_le hk)
    rwa [Fin.ofNat_val_eq_self] at hstored
  · exact (pcNext_toNat _).trans (by rw [storeRegs_pc])

/-- Settles O24: the block load of `x + 1` registers, and its frame. -/
theorem loadRegsCopiesFromMemory : Obligations.LoadRegsCopiesFromMemory := by
  intro s x
  refine ⟨_, rfl, fun k hk => ?_, ?_, (loadRegs_changesOnly s (by omega)).pcNext⟩
  · exact (readV_loadRegs (by omega) k).trans (if_pos (Nat.lt_succ_of_le hk))
  · exact (pcNext_toNat _).trans (by rw [loadRegs_pc])

/-! ## Round trips (R205) -/

/-- Effective addresses depend on I alone (R204). -/
theorem ea_congr {u : State} (hi : u.i = s.i) (k : Nat) : u.ea k = s.ea k :=
  congrArg (· + BitVec.ofNat 12 k) hi

/-- Where LD Vx, [I] runs with the I of `s`, it loads the bytes at the addresses of `s`. -/
theorem exec_loadRegs_of_same_i {u : State} (hi : u.i = s.i) (x : Reg) :
    ∃ w, exec (.loadRegs x) u = .next w ∧ ∀ k : Reg, k ≤ x → w.readV k = u.readMem (s.ea k.val) := by
  obtain ⟨w, hw, hload, -, -⟩ := loadRegsCopiesFromMemory u x
  exact ⟨w, hw, fun k hk => ea_congr hi k.val ▸ hload k hk⟩

/-- Settles O25: the load finds what O22 and O23 say was stored. -/
theorem storeThenLoadGivesValuesBack : Obligations.StoreThenLoadGivesValuesBack := by
  intro s t u x h hi
  refine ⟨fun ht hu => ?_, fun ht hu => ?_⟩
  · obtain ⟨t', ht', hstored, -, -⟩ := storeRegsCopiesToMemory s x h
    cases ht'.symm.trans ht
    obtain ⟨w, hw, hload⟩ := exec_loadRegs_of_same_i hi x
    exact ⟨w, hw, fun k hk => (hload k hk).trans ((hu k.val hk).trans (hstored k hk))⟩
  · obtain ⟨t', ht', hones, htens, hhundreds, -, -⟩ := ldBWritesDecimalDigits s x h
    cases ht'.symm.trans ht
    obtain ⟨w, hw, hload⟩ := exec_loadRegs_of_same_i hi 2
    have hv (k : Reg) (hk : k ≤ 2) : w.readV k = t.readMem (s.ea k.val) := (hload k hk).trans (hu k.val hk)
    refine ⟨w, hw, ?_, ?_, ?_⟩
    · exact (congrArg BitVec.toNat (hv 0 (by decide))).trans hones
    · exact (congrArg BitVec.toNat (hv 1 (by decide))).trans htens
    · exact (congrArg BitVec.toNat (hv 2 (by decide))).trans hhundreds

end Sys2Proof.Machine

/-! # The unrecognized instruction (spec/48_unrecognized.md) -/

namespace Sys2Proof.Machine

/-- Settles O26: UNRECOGNIZED is `next` and nothing else. -/
theorem unrecognizedOnlyAdvances : Obligations.UnrecognizedOnlyAdvances := fun s =>
  ⟨_, rfl, pcNext_toNat s, setPc_changesOnly s _⟩

end Sys2Proof.Machine

/-! # Reset and the driver (spec/70_reset_and_hazards.md)

Reset is one load of LOWMEM at 0 and one of the image at 0x200; Advance is the step of a state in which the carried
answers are listed first.

## What Reset puts in memory (R58, R250) -/

namespace Sys2Proof.Machine

variable {s t u : State} {image : List Byte}

theorem imageFits_iff : imageFits image = true ↔ image.length ≤ 3584 := decide_eq_true_iff

theorem progBase_toNat : Config.progBase.toNat = 512 := rfl

theorem lowmem_length (lowmem : Vector Byte Config.lowmemSize) : lowmem.toList.length = 512 := Vector.length_toList

theorem load_lowmem_wf (lowmem : Vector Byte Config.lowmemSize) : (Memory.load [] 0 lowmem.toList).wf = true :=
  Memory.load_wf rfl (by rw [lowmem_length]; decide)

/-- LOWMEM ends at 0x1FF, and 0 stands above it. -/
theorem read_load_lowmem (lowmem : Vector Byte Config.lowmemSize) (a : Nat) :
    (Memory.load [] 0 lowmem.toList).read a = if h : a < 512 then lowmem[a]'h else 0 := by
  rw [Memory.read_load rfl (by rw [lowmem_length]; decide)]
  simp only [Nat.zero_le, true_and, Nat.sub_zero, Vector.length_toList, Vector.getElem_toList]
  rfl

/-- An image that fits keeps the canonical form, because it ends at or below 0xFFF (R251). -/
theorem resetMemory_wf (lowmem : Vector Byte Config.lowmemSize) (h : image.length ≤ 3584) :
    (State.resetMemory lowmem image).wf = true :=
  Memory.load_wf (load_lowmem_wf lowmem) (by rw [progBase_toNat]; omega)

/-- Below and above the image stands what the load of LOWMEM left. -/
theorem read_resetMemory_outside (lowmem : Vector Byte Config.lowmemSize) (h : image.length ≤ 3584) {a : Nat}
    (ha : a < 512 ∨ 512 + image.length ≤ a) :
    (State.resetMemory lowmem image).read a = (Memory.load [] 0 lowmem.toList).read a := by
  rw [State.resetMemory, progBase_toNat, Memory.read_load (load_lowmem_wf lowmem) (by omega), dif_neg (by omega)]

theorem read_resetMemory_lowmem (lowmem : Vector Byte Config.lowmemSize) (h : image.length ≤ 3584) {a : Nat}
    (ha : a < 512) : (State.resetMemory lowmem image).read a = lowmem[a]'ha := by
  rw [read_resetMemory_outside lowmem h (.inl ha), read_load_lowmem, dif_pos ha]

theorem read_resetMemory_image (lowmem : Vector Byte Config.lowmemSize) (h : image.length ≤ 3584) {j : Nat}
    (hj : j < image.length) : (State.resetMemory lowmem image).read (512 + j) = image[j] := by
  rw [State.resetMemory, progBase_toNat, Memory.read_load (load_lowmem_wf lowmem) (by omega), dif_pos (by omega)]
  simp only [Nat.add_sub_cancel_left]

theorem read_resetMemory_above (lowmem : Vector Byte Config.lowmemSize) (h : image.length ≤ 3584) {a : Nat}
    (ha : 512 + image.length ≤ a) : (State.resetMemory lowmem image).read a = 0 := by
  rw [read_resetMemory_outside lowmem h (.inr ha), read_load_lowmem, dif_neg (by omega)]

/-- An address below 4096 is its own 12-bit number. -/
theorem readMem_ofNat (s : State) {a : Nat} (ha : a < 4096) : s.readMem (BitVec.ofNat 12 a) = s.mem.read a := by
  rw [State.readMem, BitVec.toNat_ofNat, Nat.mod_eq_of_lt ha]

/-! ## Reset (R250, R251) -/

/-- Settles O55: the registers are those of the reset state (O54), and each part of memory is read by its own lemma. -/
theorem resetLoadsLowmemAndImage : Obligations.ResetLoadsLowmemAndImage := by
  intro s lowmem image h
  obtain ⟨hpc, hv, hi, hsp, hstack, hdt, hst, -⟩ := resetStateHoldsTheResetValues
  refine ⟨_, serve_reset_fits s lowmem (imageFits_iff.2 h), rfl, hpc, hv, hi, congrArg Fin.val hsp, hstack, hdt, hst,
    fun a => ?_, fun j hj => ?_, fun a ha hlt => ?_⟩
  · exact (readMem_ofNat _ (by omega)).trans (read_resetMemory_lowmem lowmem h a.isLt)
  · exact (readMem_ofNat _ (by omega)).trans (read_resetMemory_image lowmem h hj)
  · exact (readMem_ofNat _ hlt).trans (read_resetMemory_above lowmem h ha)

/-- Settles O56: `resetWith` answers nothing for an image that does not fit. -/
theorem oversizedImageIsRefused : Obligations.OversizedImageIsRefused := by
  intro s lowmem image h
  have hfits : ¬ imageFits image = true := fun e => Nat.not_le_of_lt h (imageFits_iff.1 e)
  simp only [serve, State.resetWith, if_neg hfits]

/-- A Reset that is served leaves a state of the invariant: its memory is canonical and it gives no value. -/
theorem serve_reset_inv {lowmem : Vector Byte Config.lowmemSize} (h : serve (.reset lowmem image) s = .next t) :
    t.Inv := by
  rcases Nat.lt_or_ge 3584 image.length with hlong | hfits
  · cases (oversizedImageIsRefused s lowmem image hlong).symm.trans h
  · cases (serve_reset_fits s lowmem (imageFits_iff.2 hfits)).symm.trans h
    exact ⟨resetMemory_wf lowmem hfits, trivial⟩

/-! ## Advance (R252, R253) -/

@[simp] theorem pcSkipIf_inputs (s : State) (c : Bool) : (s.pcSkipIf c).inputs = s.inputs := by
  rw [pcSkipIf_eq, setPc_inputs]
@[simp] theorem pcSkipIf_started (s : State) (c : Bool) : (s.pcSkipIf c).started = s.started := by
  rw [pcSkipIf_eq, setPc_started]
@[simp] theorem storeRegs_inputs (n : Nat) (s : State) : (s.storeRegs n).inputs = s.inputs := by rw [storeRegs_eq]
@[simp] theorem storeRegs_started (n : Nat) (s : State) : (s.storeRegs n).started = s.started := by rw [storeRegs_eq]
@[simp] theorem loadRegs_inputs (n : Nat) (s : State) : (s.loadRegs n).inputs = s.inputs := by rw [loadRegs_eq]
@[simp] theorem loadRegs_started (n : Nat) (s : State) : (s.loadRegs n).started = s.started := by rw [loadRegs_eq]

/-- No instruction uses up an answer or stops the core: both are the driver's (R252, R253). -/
theorem exec_inputs_started {i : Instr} (h : exec i s = .next t) : t.inputs = s.inputs ∧ t.started = s.started := by
  cases i with
  | ret => rw [eq_of_execRet h]; exact ⟨rfl, rfl⟩
  | call nnn => rw [eq_of_execCall h]; exact ⟨rfl, rfl⟩
  | ldVxK x => rw [eq_of_execLdVxK h]; exact ⟨rfl, rfl⟩
  | _ => cases h; simp

/-- The state in which the instruction of an Advance with the answers `inp` runs. -/
def State.beginAdvance (s : State) (inp : StepInput) : State := (s.withInputs (inp :: s.inputs)).beginStep

variable {inp : StepInput}

/-- An Advance of a started core is the instruction at pc and the end of the step, which uses up the carried answers
and no others. -/
theorem serve_advance_of_exec {i : Instr} (hs : s.started = true) (hi : s.instrAtPc = i)
    (hu : exec i (s.beginAdvance inp) = .next u) :
    serve (.advance inp) s = .next u.endStep ∧ u.endStep.inputs = s.inputs ∧ u.endStep.started = true := by
  obtain ⟨hinputs, hstarted⟩ := exec_inputs_started hu
  subst hi
  refine ⟨(serve_advance_started s inp hs).trans ((step_eq_next _).2 ⟨u, hu, rfl⟩), ?_, ?_⟩
  · rw [endStep_inputs, hinputs]; rfl
  · rw [endStep_started, hstarted]; exact hs

/-- The frame of the step does not move pc. -/
theorem advances_endStep {k : Nat} (h : Advances (s.beginAdvance inp) u k) : Advances s u.endStep k := by
  rw [Advances, endStep_pc]
  exact h

/-- An Advance at LD Vx, K, with a key carried and with none (R184, R108). -/
theorem serve_advance_ldVxK {x : Reg} (hs : s.started = true) (hi : s.instrAtPc = .ldVxK x) :
    ∃ t, serve (.advance inp) s = .next t ∧ t.inputs = s.inputs ∧
      (∀ k, inp.keyWait = some k → t.readV x = k ∧ Advances s t 2) ∧
      (inp.keyWait = none → t.reply = .held ∧ t.pc = s.pc) := by
  cases hk : inp.keyWait with
  | none =>
    obtain ⟨hserve, hinputs, -⟩ := serve_advance_of_exec hs hi (execLdVxK_held (s.beginAdvance inp) x hk)
    exact ⟨_, hserve, hinputs, nofun, fun _ => ⟨rfl, rfl⟩⟩
  | some k =>
    obtain ⟨u, hu, hv, hpc, -⟩ := ldKStoresReportedKey (s.beginAdvance inp) x k hk
    obtain ⟨hserve, hinputs, -⟩ := serve_advance_of_exec hs hi hu
    refine ⟨_, hserve, hinputs, fun k' hk' => ?_, nofun⟩
    cases hk'
    exact ⟨(readV_endStep u x).trans hv, advances_endStep hpc⟩

/-- Settles O57: each clause is what O17, O7 and O20 say of the instruction, in a state whose first answers are the
carried ones. -/
theorem advanceConsultsItsOwnAnswers : Obligations.AdvanceConsultsItsOwnAnswers := by
  intro s inp x nn
  refine ⟨serve_advance_not_started s inp, fun hs => ⟨?_, fun hi => ?_, fun hi => ?_, fun hi => ?_,
    serve_advance_ldVxK hs⟩⟩
  · obtain ⟨u, hu⟩ := exec_answers_next s.instrAtPc (s.beginAdvance inp)
    obtain ⟨hserve, -, hstarted⟩ := serve_advance_of_exec hs rfl hu
    exact ⟨_, hserve, hstarted⟩
  · obtain ⟨u, hu, hv, -⟩ := rndStoresMaskedDraw (s.beginAdvance inp) x nn
    obtain ⟨hserve, hinputs, -⟩ := serve_advance_of_exec hs hi hu
    exact ⟨_, hserve, (readV_endStep u x).trans hv, hinputs⟩
  · obtain ⟨⟨u, hu, hpc, -⟩, -⟩ := keySkipsAskAboutWholeRegister (s.beginAdvance inp) x
    obtain ⟨hserve, hinputs, -⟩ := serve_advance_of_exec hs hi hu
    exact ⟨_, hserve, advances_endStep hpc, hinputs⟩
  · obtain ⟨-, u, hu, hpc, -⟩ := keySkipsAskAboutWholeRegister (s.beginAdvance inp) x
    obtain ⟨hserve, hinputs, -⟩ := serve_advance_of_exec hs hi hu
    exact ⟨_, hserve, advances_endStep hpc, hinputs⟩

/-! ## The invariant over requests (R253) -/

/-- An Advance that is served keeps the invariant, which does not speak of answers: it is a step (O59). -/
theorem serve_advance_inv (hs : s.Inv) (h : serve (.advance inp) s = .next t) : t.Inv := by
  cases hstarted : s.started with
  | false => cases (serve_advance_not_started s inp hstarted).symm.trans h
  | true =>
    rw [serve_advance_started s inp hstarted] at h
    exact everyStepKeepsTheInvariant (s.withInputs (inp :: s.inputs)) t hs h

/-- Settles O60: the two requests, each by its own lemma. -/
theorem everyRequestKeepsTheInvariant : Obligations.EveryRequestKeepsTheInvariant
  | .reset _ _, _, _, _, h => serve_reset_inv h
  | .advance _, _, _, hs, h => serve_advance_inv hs h

end Sys2Proof.Machine
